-- ==== Sys2Proof/Word.lean ====
section
/-! DEFINITION. Word.lean: the widths of the engine's data (00_scope.md R7 to R10). Addition of words is addition
modulo 2^32 with the carry discarded, which is what `+` on `BitVec 32` is (R10). -/

namespace Sys2Proof

/-- A word: 32 bits, unsigned, bit 0 the least significant (R9; `XLEN`, `CMDW`, `WDATAW`, `RDATAW` of R7 and R8). -/
abbrev Word := BitVec 32

/-- A byte of the host layer's message (R9). The engine itself never sees one (20_memory.md R43). -/
abbrev Byte := BitVec 8

/-- The index field of a command word, `IDXW` = 8 bits (R8). -/
abbrev Index := BitVec 8

end Sys2Proof
end

