-- ==== Sys2Proof/Syntax.lean ====
section
/-! DEFINITION. Syntax.lean: commands and instructions as data (30_encoding.md R62, R65 to R67). -/

namespace Sys2Proof

/-- A command: the pair `(cmd, wdata)`, both always present (R62). -/
structure Command where
  cmd   : Word
  wdata : Word
deriving DecidableEq, Repr

/-- The three formats: which of `idx` and `wdata` a command uses (R65). -/
inductive Format where
  | n   -- neither
  | i   -- `idx`
  | id  -- `idx` and `wdata`
deriving DecidableEq, Repr

/-- The seven commands, in the order of the opcode map (R67). -/
inductive Mnemonic where
  | ldiv | wrh | rdh | wrb | compress | stat | rdk
deriving DecidableEq, Repr

/-- A decoded command with its operands: one constructor per row of spec/opcode_table.json. `idx` is the 8-bit index
operand, unscaled and unextended; `data` is `wdata` taken whole (R66). The commands that ignore `wdata` carry none
(R62). The five micro-operations have no encoding and are no instructions (R74): see Machine/Transient.lean. -/
inductive Instr where
  | ldiv
  | wrh (idx : Index) (data : Word)
  | rdh (idx : Index)
  | wrb (idx : Index) (data : Word)
  | compress
  | stat
  | rdk (idx : Index)
deriving DecidableEq, Repr

/-- The row of the opcode map an instruction belongs to. -/
def Instr.mnemonic : Instr → Mnemonic
  | .ldiv     => .ldiv
  | .wrh _ _  => .wrh
  | .rdh _    => .rdh
  | .wrb _ _  => .wrb
  | .compress => .compress
  | .stat     => .stat
  | .rdk _    => .rdk

end Sys2Proof
end

