-- ==== Sys2Proof/WellFormed.lean ====
section
/-! DEFINITION. WellFormed.lean: the legal operands of each instruction (30_encoding.md R66, R67). -/

namespace Sys2Proof

/-- The index operand is inside the command's index space: 0 to 7 for WRH and RDH, 0 to 15 for WRB, 0 to 63 for RDK
(R66). Every data word is legal. -/
def Instr.wellFormed : Instr → Bool
  | .ldiv      => true
  | .wrh idx _ => decide (idx.toNat ≤ 7)
  | .rdh idx   => decide (idx.toNat ≤ 7)
  | .wrb idx _ => decide (idx.toNat ≤ 15)
  | .compress  => true
  | .stat      => true
  | .rdk idx   => decide (idx.toNat ≤ 63)

/-- `i` is an instruction some legal command word encodes. -/
abbrev WellFormed (i : Instr) : Prop := i.wellFormed = true

end Sys2Proof
end

