-- ==== Sys2Proof/Decode.lean ====
section
/-! DEFINITION. Decode.lean: command words to instructions and back (30_encoding.md R64 to R70). Decoding is total on
every pair of words, reads the command word only for legality, and rejects by name. -/

namespace Sys2Proof

/-! ### Fields (R64) -/

/-- Opcode, bits 31:24. -/
def opField (c : Word) : BitVec 8 := c.extractLsb' 24 8

/-- Reserved field `z`, bits 23:8, must be zero. -/
def zField (c : Word) : BitVec 16 := c.extractLsb' 8 16

/-- Index, bits 7:0. -/
def idxField (c : Word) : Index := c.extractLsb' 0 8

/-! ### The opcode map (R67) -/

/-- The opcode of a command. -/
def Mnemonic.opcode : Mnemonic → BitVec 8
  | .ldiv     => 0x01
  | .wrh      => 0x02
  | .rdh      => 0x03
  | .wrb      => 0x04
  | .compress => 0x05
  | .stat     => 0x06
  | .rdk      => 0x07

/-- The format of a command. -/
def Mnemonic.format : Mnemonic → Format
  | .ldiv     => .n
  | .wrh      => .id
  | .rdh      => .i
  | .wrb      => .id
  | .compress => .n
  | .stat     => .n
  | .rdk      => .i

/-- The `match` column: the fixed bits of a command's words. -/
def Mnemonic.matchBits : Mnemonic → Word
  | .ldiv     => 0x01000000
  | .wrh      => 0x02000000
  | .rdh      => 0x03000000
  | .wrb      => 0x04000000
  | .compress => 0x05000000
  | .stat     => 0x06000000
  | .rdk      => 0x07000000

/-- The `mask` column: which bits of a command's words are fixed. -/
def Mnemonic.mask : Mnemonic → Word
  | .ldiv     => 0xffffffff
  | .wrh      => 0xfffffff8
  | .rdh      => 0xfffffff8
  | .wrb      => 0xfffffff0
  | .compress => 0xffffffff
  | .stat     => 0xffffffff
  | .rdk      => 0xffffffc0

/-- The rows in table order. -/
def Mnemonic.rows : List Mnemonic := [.ldiv, .wrh, .rdh, .wrb, .compress, .stat, .rdk]

/-- A word encodes a command if and only if `(c and mask) = match`. -/
def Mnemonic.encodedBy (m : Mnemonic) (c : Word) : Bool := (c &&& m.mask) == m.matchBits

/-! ### Decoding (R68 to R70) -/

/-- Why a command word is illegal, in the order of R70. Every one is answered `IllegalCommand`. -/
inductive Illegal where
  | reservedOpcode      -- `op` is 0x00 or 0x08 to 0xff (R69)
  | reservedFieldNotZero -- `z` is not zero
  | indexNotZero        -- a format N opcode with `idx` not zero
  | indexOutOfRange     -- an index above the command's range
deriving DecidableEq, Repr

/-- Names the reason for a word that no row encodes. Its answer is used for such words only. -/
def whyIllegal (c : Word) : Illegal :=
  match Mnemonic.rows.find? (fun m => m.opcode == opField c) with
  | none => .reservedOpcode
  | some m =>
    if zField c ≠ 0 then .reservedFieldNotZero
    else if m.format = .n then .indexNotZero
    else .indexOutOfRange

/-- The decoder of R68: the first row that encodes the word, with the index field. -/
def decodeWord (c : Word) : Except Illegal (Mnemonic × Index) :=
  match Mnemonic.rows.find? (fun m => m.encodedBy c) with
  | some m => .ok (m, idxField c)
  | none   => .error (whyIllegal c)

/-- Operand assembly (R66): the index unscaled, `wdata` whole and only where the format uses it. -/
def assemble (m : Mnemonic) (idx : Index) (wdata : Word) : Instr :=
  match m with
  | .ldiv     => .ldiv
  | .wrh      => .wrh idx wdata
  | .rdh      => .rdh idx
  | .wrb      => .wrb idx wdata
  | .compress => .compress
  | .stat     => .stat
  | .rdk      => .rdk idx

/-- The instruction a command stands for, or the reason it is illegal. -/
def decode (c : Command) : Except Illegal Instr :=
  match decodeWord c.cmd with
  | .ok (m, idx) => .ok (assemble m idx c.wdata)
  | .error e     => .error e

/-! ### Encoding -/

/-- The index operand an instruction puts into its command word; 0 in format N (R65). -/
def Instr.index : Instr → Index
  | .ldiv      => 0
  | .wrh idx _ => idx
  | .rdh idx   => idx
  | .wrb idx _ => idx
  | .compress  => 0
  | .stat      => 0
  | .rdk idx   => idx

/-- The data operand; the commands that ignore `wdata` are sent with 0 (R72: "the test vectors use `00000000` there";
log entry 6). -/
def Instr.data : Instr → Word
  | .ldiv       => 0
  | .wrh _ data => data
  | .rdh _      => 0
  | .wrb _ data => data
  | .compress   => 0
  | .stat       => 0
  | .rdk _      => 0

/-- The command of an instruction: `{op, z = 0, idx}` and `wdata` (R64, R65). -/
def encode (i : Instr) : Command where
  cmd   := i.mnemonic.opcode ++ (0 : BitVec 16) ++ i.index
  wdata := i.data

/-! ### The opcode table's numbering -/

/-- The command whose bits are `w`, numbered as spec/opcode_table.json numbers them: bits 31:0 the command word, the
operand word `wdata` after it in bits 63:32 (log entry 6); bits from `nbits` up are zero. -/
def commandOfTableWord (nbits w : Nat) : Command :=
  let v := w % 2 ^ nbits
  { cmd := BitVec.ofNat 32 v, wdata := BitVec.ofNat 32 (v >>> 32) }

/-- The instruction the decoder reads from a table word, none where it refuses. -/
def decodeTableWord (nbits w : Nat) : Option Instr :=
  match decode (commandOfTableWord nbits w) with
  | .ok i    => some i
  | .error _ => none

end Sys2Proof
end

