-- ==== Sys2Proof/Machine/State.lean ====
section
/-! DEFINITION. Machine/State.lean: the state of the machine as plain data, its reset value, and the reasons a step can
stop (10_state.md R20 to R37, 30_encoding.md R63, 60_exceptions.md R190). -/

namespace Sys2Proof.Machine

/-- The status of a response (60_exceptions.md R190). All four values of the 2-bit field have a name. -/
inductive Status where
  | ok               -- 0: the command was carried out
  | invalidArgument  -- 1: COMPRESS with fewer than sixteen valid block words
  | invalidState     -- 2: the host layer's error, never produced by the engine
  | illegalCommand   -- 3: the command word does not decode
deriving DecidableEq, Repr

/-- The numeric code of a status (R190). -/
def Status.code : Status → BitVec 2
  | .ok              => 0
  | .invalidArgument => 1
  | .invalidState    => 2
  | .illegalCommand  => 3

/-- A response: the pair `(status, rdata)` (30_encoding.md R63). -/
structure Response where
  status : Status
  rdata  : Word
deriving DecidableEq, Repr

/-- What reaches the engine from outside: a command of the host (30_encoding.md R60) or the environment's reset event
(70_reset_and_hazards.md R215). -/
inductive HostInput where
  | command (c : Command)
  | resetEvent
deriving DecidableEq, Repr

/-- The machine between two transactions. `h`, `b`, `bv` are the whole architectural state of the engine (10_state.md
R25); `inputs` and `responses` stand for the host's side of the two channels (log entry 1). The schedule, the working
registers and the sequencer position are local to COMPRESS and no fields (R26 to R28; log entry 4). -/
structure State where
  /-- State accumulator register file `H[0..7]` (R20). -/
  h : Vector Word 8
  /-- Block buffer `B[0..15]`; `none` is "holds no value" (R23, 00_scope.md R13). -/
  b : Vector (Option Word) 16
  /-- Block-valid mask `BV` (R24). -/
  bv : BitVec 16
  /-- The host inputs not yet taken, the next one first (the model's own field; 10_state.md R30). -/
  inputs : List HostInput
  /-- The responses returned so far, oldest first (the model's own field; 70_reset_and_hazards.md R228). -/
  responses : List Response
deriving DecidableEq, Repr

/-- The state right after reset (10_state.md R33): `H = IV`, every `B[j]` holds no value, `BV = 0`. No input is waiting
and no response has been returned (log entry 1). -/
def State.reset : State where
  h := iv
  b := Vector.replicate 16 none
  bv := 0
  inputs := []
  responses := []

/-- Why the machine stops. The engine proper never does ("Nothing in the engine proper ... is `fault` or `stuck`",
93_implementation_defined.md part 1): each constructor is what 00_scope.md R13 asks for, a read of an element that
holds no value, and is raised in states only that no run from reset reaches (log entry 3). -/
inductive Fault where
  /-- Raised by SLOAD inside COMPRESS when `BV = 0xffff` and a block word holds no value. Safe: the machine stops where
  the spec gives the word no content. -/
  | blockWordHoldsNoValue
  /-- Raised by SEXP or ROUND for a schedule word not written yet. Safe, and never raised in the reference order. -/
  | scheduleWordHoldsNoValue
  /-- Raised by ROUND or FOLD for working registers not written yet. Safe, and never raised in the reference order. -/
  | workingRegistersHoldNoValue
deriving DecidableEq, Repr

/-- Why the machine has no meaning for an instruction. -/
inductive Refusal where
  /-- An instruction without a meaning, raised by exec's arm for it. Safe. No arm does so: every command is modelled. -/
  | notModelled (mnemonic : String)
deriving DecidableEq, Repr

end Sys2Proof.Machine
end

