-- ==== Sys2Proof/Machine/Flags.lean ====
section
/-! DEFINITION. Machine/Flags.lean: the engine's only flag, the block-valid mask `BV`, and the status register that
shows it (10_state.md R24, R31, R32). No arithmetic result sets a flag. -/

namespace Sys2Proof.Machine

/-- `BV[j] <- 1`, the other fifteen bits unchanged (44_command_sequencer.md R150). -/
def setValid (bv : BitVec 16) (j : Fin 16) : BitVec 16 := bv ||| (1#16 <<< j.val)

/-- `BV = 0xffff`: the block is exactly 64 bytes (10_state.md R24). -/
def allValid (bv : BitVec 16) : Bool := bv == 0xffff

/-- The status register: bits 15:0 are `BV`, bits 31:16 are hardwired 0 (10_state.md R32). -/
def statWord (bv : BitVec 16) : Word := bv.zeroExtend 32

end Sys2Proof.Machine
end

