-- ==== Sys2Proof/Machine/Operands.lean ====
section
/-! DEFINITION. Machine/Operands.lean: the operand forms (30_encoding.md R65, R66). There are two, the index and the
data word; the data word is `wdata` taken whole and needs no operation. There is no immediate, no scaling and no
addressing mode. -/

namespace Sys2Proof.Machine

/-- The element an index names in a space of `n` elements, none where it lies outside (20_memory.md R41). -/
def elementOf (n : Nat) (idx : Index) : Option (Fin n) :=
  if h : idx.toNat < n then some ⟨idx.toNat, h⟩ else none

/-- An index of the state registers `H`, 0 to 7. -/
def stateIndex (idx : Index) : Option (Fin 8) := elementOf 8 idx

/-- An index of the block buffer `B`, 0 to 15. -/
def blockIndex (idx : Index) : Option (Fin 16) := elementOf 16 idx

/-- An index of the round-constant ROM `K`, 0 to 63. -/
def romIndex (idx : Index) : Option (Fin 64) := elementOf 64 idx

end Sys2Proof.Machine
end

