-- ==== Sys2Proof/Machine/Ops.lean ====
section
/-! DEFINITION. Machine/Ops.lean: the named operations on registers, responses, errors, and the host's inputs. -/

namespace Sys2Proof.Machine

/-! ### Registers (10_state.md R20 to R25) -/

/-- `H[i]`. -/
def State.readH (s : State) (i : Fin 8) : Word := s.h[i]

/-- `H[i] <- v`. -/
def State.writeH (s : State) (i : Fin 8) (v : Word) : State := { s with h := s.h.set i v }

/-- All eight words of `H` at once. -/
def State.loadH (s : State) (v : Vector Word 8) : State := { s with h := v }

/-- `B[j] <- v` and `BV[j] <- 1` (R23, R24). -/
def State.writeB (s : State) (j : Fin 16) (v : Word) : State :=
  { s with b := s.b.set j (some v), bv := setValid s.bv j }

/-- `BV <- 0x0000`; `B[0..15]` now hold no value (44_command_sequencer.md R151). -/
def State.consumeBlock (s : State) : State := { s with b := Vector.replicate 16 none, bv := 0 }

/-! ### Responses and errors (00_scope.md R12) -/

/-- The state in which the host has taken the response `(st, v)`. Nothing of the engine's state changes. -/
def State.answer (s : State) (st : Status) (v : Word) : State :=
  { s with responses := s.responses ++ [{ status := st, rdata := v }] }

/-- `respond(st, v)`: ends the command with this response. -/
def respond (st : Status) (v : Word) (s : State) : Host.Outcome State Fault Refusal := .next (s.answer st v)

/-- `raise <error>`: response `(st, 0)` and no write to any state. This is all there is of taking an exception: no
register saves anything, no mode changes, no handler is entered and nothing returns (60_exceptions.md R193, R198,
R199). -/
def raise (st : Status) (s : State) : Host.Outcome State Fault Refusal := respond st 0 s

/-- The answer to an illegal command word: `(3, 0)`, whatever the reason (30_encoding.md R70, 60_exceptions.md R192). -/
def execIllegal (s : State) : Host.Outcome State Fault Refusal := raise .illegalCommand s

/-! ### What comes from outside -/

/-- The reset event (70_reset_and_hazards.md R215): the engine goes to the reset state of 10_state.md R33 and gives no
response. What the host already received and what it has still to present are not engine state (log entry 7). -/
def State.resetEvent (s : State) : State :=
  { s with h := State.reset.h, b := State.reset.b, bv := State.reset.bv }

/-- The next input and the state without it, none when the host presents nothing. -/
def State.takeInput (s : State) : Option (HostInput × State) :=
  match s.inputs with
  | []          => none
  | inp :: rest => some (inp, { s with inputs := rest })

/-- The host presents a command before everything it has still to present. -/
def State.present (s : State) (c : Command) : State := { s with inputs := .command c :: s.inputs }

end Sys2Proof.Machine
end

