-- ==== Sys2Proof/Machine/WordFunctions.lean ====
section
/-! DEFINITION. Machine/WordFunctions.lean: the word functions of the expander and the round ALU
(41_message_schedule.md R90 to R95, 42_compression_round.md R110 to R115). -/

namespace Sys2Proof.Machine

/-- Rotate right (R90). The amount is strictly between 0 and 32: the function is not defined elsewhere, and the side
condition is proved at each of the ten uses (R94; log entry 10). -/
def rotr (x : Word) (n : Nat) (_ : 0 < n ∧ n < 32 := by decide) : Word := (x >>> n) ||| (x <<< (32 - n))

/-- Logical shift right (R91), with the same condition on the amount. -/
def shr (x : Word) (n : Nat) (_ : 0 < n ∧ n < 32 := by decide) : Word := x >>> n

/-- The source's `s0` (R92). -/
def ssig0 (x : Word) : Word := rotr x 7 ^^^ rotr x 18 ^^^ shr x 3

/-- The source's `s1` (R93). -/
def ssig1 (x : Word) : Word := rotr x 17 ^^^ rotr x 19 ^^^ shr x 10

/-- The source's `S0` (R110). -/
def bsig0 (x : Word) : Word := rotr x 2 ^^^ rotr x 13 ^^^ rotr x 22

/-- The source's `S1` (R111). -/
def bsig1 (x : Word) : Word := rotr x 6 ^^^ rotr x 11 ^^^ rotr x 25

/-- Choose (R112). -/
def ch (x y z : Word) : Word := (x &&& y) ^^^ ((~~~x) &&& z)

/-- Majority (R113). -/
def maj (x y z : Word) : Word := (x &&& y) ^^^ (x &&& z) ^^^ (y &&& z)

/-- The expander's 4-input sum (R95), from `W[t-16]`, `W[t-15]`, `W[t-7]`, `W[t-2]`. -/
def scheduleSum (w16 w15 w7 w2 : Word) : Word := w16 + ssig0 w15 + w7 + ssig1 w2

end Sys2Proof.Machine
end

