-- ==== Sys2Proof/Machine/Transient.lean ====
section
/-! DEFINITION. Machine/Transient.lean: the transient state inside COMPRESS and the five micro-operations as data
(10_state.md R26 to R28; 00_scope.md R2). None of it survives a command. -/

namespace Sys2Proof.Machine

/-- The working registers `a` to `h` (10_state.md R27). -/
structure Working where
  a : Word
  b : Word
  c : Word
  d : Word
  e : Word
  f : Word
  g : Word
  h : Word
deriving DecidableEq, Repr

/-- `wr[0..7]` names the working registers in order (00_scope.md R11). -/
def Working.toVector (r : Working) : Vector Word 8 := #v[r.a, r.b, r.c, r.d, r.e, r.f, r.g, r.h]

/-- The working registers that hold eight words in index order. -/
def Working.ofVector (v : Vector Word 8) : Working :=
  { a := v[0], b := v[1], c := v[2], d := v[3], e := v[4], f := v[5], g := v[6], h := v[7] }

/-- The transient storage of one COMPRESS: the schedule `W[0..63]` and the working registers. `none` is "holds no
value" (00_scope.md R13). -/
structure Transient where
  w  : Vector (Option Word) 64
  wr : Option Working
deriving DecidableEq, Repr

/-- Before a COMPRESS nothing holds a value (10_state.md R26, R27). -/
def Transient.empty : Transient where
  w := Vector.replicate 64 none
  wr := none

/-- The micro-operations. `t` is the round or schedule index (00_scope.md R2). -/
inductive MicroOp where
  | sload
  | sexp (t : Fin 64)
  | winit
  | round (t : Fin 64)
  | fold
deriving DecidableEq, Repr

/-- `W[t]`; a fault where the word holds no value. -/
def Transient.readW (x : Transient) (t : Nat) : Except Fault Word :=
  match x.w[t]? with
  | some (some v) => .ok v
  | _             => .error .scheduleWordHoldsNoValue

/-- `W[t] <- v`. -/
def Transient.writeW (x : Transient) (t : Fin 64) (v : Word) : Transient := { x with w := x.w.set t (some v) }

/-- `W[j] <- v[j]` for `j` in 0 to 15, the other words unchanged. -/
def Transient.writeBlock (x : Transient) (v : Vector Word 16) : Transient :=
  { x with w := Vector.ofFn fun t : Fin 64 => if h : t.val < 16 then some v[t.val] else x.w[t] }

/-- The working registers; a fault where they hold no value. -/
def Transient.readWorking (x : Transient) : Except Fault Working :=
  match x.wr with
  | some r => .ok r
  | none   => .error .workingRegistersHoldNoValue

end Sys2Proof.Machine
end

