-- ==== Sys2Proof/Machine/CompressionRound.lean ====
section
/-! DEFINITION. Machine/CompressionRound.lean: the round ALU: the two sums of a round, the micro-operations WINIT and
ROUND, and the pure function `rounds` they compute (42_compression_round.md R114 to R117). -/

namespace Sys2Proof.Machine

/-- `temp1`, the 5-input sum (R115). -/
def temp1 (r : Working) (k w : Word) : Word := r.h + bsig1 r.e + ch r.e r.f r.g + k + w

/-- `temp2`, the 2-input sum (R115). -/
def temp2 (r : Working) : Word := bsig0 r.a + maj r.a r.b r.c

/-- One round on the working registers, every right-hand side reading the values from before (R116, R117 `step`). -/
def roundStep (r : Working) (k w : Word) : Working where
  a := temp1 r k w + temp2 r
  b := r.a
  c := r.b
  d := r.c
  e := r.d + temp1 r k w
  f := r.e
  g := r.f
  h := r.g

/-- `WINIT` (R114): `a..h` from `H[0..7]` in index order; `H` keeps its value. -/
def winitOp (s : State) (x : Transient) : Transient := { x with wr := some (Working.ofVector s.h) }

/-- `ROUND t` (R116): reads `a..h`, `K[t]` and `W[t]`. -/
def roundOp (t : Fin 64) (x : Transient) : Except Fault Transient := do
  let r ← x.readWorking
  let w ← x.readW t.val
  return { x with wr := some (roundStep r (roundConstant t) w) }

/-- The 64 rounds as a function (R117). It is not yet the new state: see `foldOp`. -/
def rounds (s : Vector Word 8) (w : Vector Word 64) : Vector Word 8 :=
  ((List.finRange 64).foldl (fun r t => roundStep r (roundConstant t) w[t]) (Working.ofVector s)).toVector

end Sys2Proof.Machine
end

