-- ==== Sys2Proof/Machine/MessageSchedule.lean ====
section
/-! DEFINITION. Machine/MessageSchedule.lean: the expander: the micro-operations SLOAD and SEXP and the pure function
`sched` they compute (41_message_schedule.md R95 to R98). -/

namespace Sys2Proof.Machine

/-- The sixteen block words when every one holds a value. -/
def blockWords (b : Vector (Option Word) 16) : Except Fault (Vector Word 16) :=
  if h : ∀ j : Fin 16, (b[j]).isSome then .ok (Vector.ofFn fun j => (b[j]).get (h j))
  else .error .blockWordHoldsNoValue

/-- `SLOAD` (R96): `W[j] <- B[j]` for `j` in 0 to 15, words unchanged. -/
def sloadOp (s : State) (x : Transient) : Except Fault Transient :=
  match blockWords s.b with
  | .ok v    => .ok (x.writeBlock v)
  | .error f => .error f

/-- `SEXP t` (R97): `W[t] <- W[t-16] + ssig0(W[t-15]) + W[t-7] + ssig1(W[t-2])`, for `t` in 16 to 63. -/
def sexpOp (t : Fin 64) (x : Transient) : Except Fault Transient := do
  let w16 ← x.readW (t.val - 16)
  let w15 ← x.readW (t.val - 15)
  let w7 ← x.readW (t.val - 7)
  let w2 ← x.readW (t.val - 2)
  return x.writeW t (scheduleSum w16 w15 w7 w2)

/-- The first `16 + n` schedule words of a block: the block itself, then one word of the recurrence of R95 at a time,
with `t = 16 + n`, so that `n`, `n+1`, `n+9`, `n+14` are `t-16`, `t-15`, `t-7`, `t-2`. -/
def schedulePrefix (b : Vector Word 16) : (n : Nat) → Vector Word (16 + n)
  | 0 => b
  | n + 1 =>
    let w := schedulePrefix b n
    w.push (scheduleSum w[n] w[n + 1] w[n + 9] w[n + 14])

/-- The schedule as a function of the block alone (R98). -/
def sched (b : Vector Word 16) : Vector Word 64 := schedulePrefix b 48

end Sys2Proof.Machine
end

