-- ==== Sys2Proof/Machine/StateAccumulator.lean ====
section
/-! DEFINITION. Machine/StateAccumulator.lean: the state register file: the micro-operation FOLD and the commands LDIV,
WRH and RDH (43_state_accumulator.md R130 to R133). -/

namespace Sys2Proof.Machine

/-- The eight fold adders: elementwise addition modulo 2^32, no carry between words (R130). -/
def foldWords (s r : Vector Word 8) : Vector Word 8 := Vector.ofFn fun i : Fin 8 => s[i] + r[i]

/-- `FOLD` (R130): `H[i] <- H[i] + wr[i]` for all eight words at once. The only micro-operation that writes `H`. -/
def foldOp (s : State) (x : Transient) : Except Fault State := do
  let r ← x.readWorking
  return s.loadH (foldWords s.h r.toVector)

/-- `LDIV` (R131): `H <- IV`; `B` and `BV` are not changed. -/
def execLdiv (s : State) : Host.Outcome State Fault Refusal := respond .ok 0 (s.loadH iv)

/-- `WRH idx, data` (R132): `H[idx] <- data`. An index above 7 makes the word illegal. -/
def execWrh (idx : Index) (data : Word) (s : State) : Host.Outcome State Fault Refusal :=
  match stateIndex idx with
  | some i => respond .ok 0 (s.writeH i data)
  | none   => execIllegal s

/-- `RDH idx` (R133): `respond(0, H[idx])`. An index above 7 makes the word illegal. -/
def execRdh (idx : Index) (s : State) : Host.Outcome State Fault Refusal :=
  match stateIndex idx with
  | some i => respond .ok (s.readH i) s
  | none   => execIllegal s

end Sys2Proof.Machine
end

