-- ==== Sys2Proof/Machine/CommandSequencer.lean ====
section
/-! DEFINITION. Machine/CommandSequencer.lean: the compress primitive: WRB, COMPRESS, STAT, the reference order of the
micro-operations and the pure function `compressFn` (44_command_sequencer.md R150 to R155). -/

namespace Sys2Proof.Machine

/-- `compress_fn` (R154): the function a successful COMPRESS applies to `H` and the block. -/
def compressFn (s : Vector Word 8) (b : Vector Word 16) : Vector Word 8 :=
  foldWords s (rounds s (sched b))

/-- The reference order inside a successful COMPRESS (R152): SLOAD, SEXP 16 to 63, WINIT, ROUND 0 to 63, FOLD. -/
def referenceOrder : List MicroOp :=
  [.sload] ++ ((List.finRange 64).drop 16).map .sexp ++ [.winit] ++ (List.finRange 64).map .round ++ [.fold]

/-- One micro-operation on the persistent and the transient state. -/
def MicroOp.run (m : MicroOp) (s : State) (x : Transient) : Except Fault (State × Transient) :=
  match m with
  | .sload   => do return (s, ← sloadOp s x)
  | .sexp t  => do return (s, ← sexpOp t x)
  | .winit   => .ok (s, winitOp s x)
  | .round t => do return (s, ← roundOp t x)
  | .fold    => do return (← foldOp s x, x)

/-- The sequencer: the micro-operations one after another. Its position is the part of the list still to run (10_state.md
R28). -/
def runMicroOps : List MicroOp → State → Transient → Except Fault (State × Transient)
  | [], s, x => .ok (s, x)
  | m :: ms, s, x =>
    match m.run s x with
    | .ok (s', x') => runMicroOps ms s' x'
    | .error f     => .error f

/-- `WRB idx, data` (R150): `B[idx] <- data`, `BV[idx] <- 1`. An index above 15 makes the word illegal. -/
def execWrb (idx : Index) (data : Word) (s : State) : Host.Outcome State Fault Refusal :=
  match blockIndex idx with
  | some j => respond .ok 0 (s.writeB j data)
  | none   => execIllegal s

/-- `COMPRESS` (R151): `InvalidArgument` unless all sixteen words are valid; else the micro-operations of R152, then
`BV <- 0` and `B` holds no value. The fault is unreachable from reset (log entry 3). -/
def execCompress (s : State) : Host.Outcome State Fault Refusal :=
  if allValid s.bv then
    match runMicroOps referenceOrder s Transient.empty with
    | .ok (s', _) => respond .ok 0 s'.consumeBlock
    | .error f    => .fault f
  else raise .invalidArgument s

/-- `STAT` (R155): `respond(0, zext_32(BV))`. -/
def execStat (s : State) : Host.Outcome State Fault Refusal := respond .ok (statWord s.bv) s

end Sys2Proof.Machine
end

