-- ==== Sys2Proof/Machine/RoundConstants.lean ====
section
/-! DEFINITION. Machine/RoundConstants.lean: the host's read port of the ROM (40_round_constants.md R81). The internal
port is `roundConstant`, read by ROUND (R82). -/

namespace Sys2Proof.Machine

/-- `RDK idx` (R81): `respond(0, K[idx])`. An index above 63 makes the word illegal (30_encoding.md R70). -/
def execRdk (idx : Index) (s : State) : Host.Outcome State Fault Refusal :=
  match romIndex idx with
  | some t => respond .ok (roundConstant t) s
  | none   => execIllegal s

end Sys2Proof.Machine
end

