-- ==== Sys2Proof/Machine/Dispatch.lean ====
section
/-! DEFINITION. Machine/Dispatch.lean: one arm per row of the opcode map (30_encoding.md R67). -/

namespace Sys2Proof.Machine

def exec (i : Instr) (s : State) : Host.Outcome State Fault Refusal :=
  match i with
  | .ldiv => Sys2Proof.Machine.execLdiv s
  | .wrh idx data => Sys2Proof.Machine.execWrh idx data s
  | .rdh idx => Sys2Proof.Machine.execRdh idx s
  | .wrb idx data => Sys2Proof.Machine.execWrb idx data s
  | .compress => Sys2Proof.Machine.execCompress s
  | .stat => Sys2Proof.Machine.execStat s
  | .rdk idx => Sys2Proof.Machine.execRdk idx s

end Sys2Proof.Machine
end

