-- ==== Sys2Proof/Machine/Step.lean ====
section
/-! DEFINITION. Machine/Step.lean: one step = one transaction: an input is taken, executed atomically, and answered
(30_encoding.md R60, 20_memory.md R47, R50). -/

namespace Sys2Proof.Machine

/-- One step. A command is decoded and executed; an illegal command word is answered `(3, 0)` (30_encoding.md R70); the
reset event gives the reset state and no response (70_reset_and_hazards.md R215); with no input the engine holds its
state (00_scope.md R14, 60_exceptions.md R207; log entry 2). -/
def step (s : State) : Host.Outcome State Fault Refusal :=
  match s.takeInput with
  | none => .next s
  | some (.resetEvent, s') => .next s'.resetEvent
  | some (.command c, s') =>
    match decode c with
    | .ok i    => exec i s'
    | .error _ => execIllegal s'

/-- The state whose next input is the command with the bits `w` (numbered as the opcode table numbers them). The engine
does not fetch; the host presents each command (10_state.md R30; log entry 1). -/
def State.withFetchWord (s : State) (nbits w : Nat) : State := s.present (commandOfTableWord nbits w)

end Sys2Proof.Machine
end

