-- ==== Sys2Proof/Machine/PseudoInstructions.lean ====
section
/-! DEFINITION. Machine/PseudoInstructions.lean: the fixed command sequences LDBLK, HASHBLK, WRST, RDST of the host
(30_encoding.md R73) and how the host issues them: command by command, stopping at the first answer that is not `OK`. -/

namespace Sys2Proof.Machine

/-- `LDBLK w0, ..., w15`: `WRB 0, w0` to `WRB 15, w15`. -/
def ldblk (w : Vector Word 16) : List Instr :=
  (List.finRange 16).map fun j => .wrb (BitVec.ofNat 8 j.val) w[j]

/-- `HASHBLK w0, ..., w15`: `LDBLK` and then `COMPRESS`. -/
def hashblk (w : Vector Word 16) : List Instr := ldblk w ++ [.compress]

/-- `WRST s0, ..., s7`: `WRH 0, s0` to `WRH 7, s7`. -/
def wrst (v : Vector Word 8) : List Instr :=
  (List.finRange 8).map fun i => .wrh (BitVec.ofNat 8 i.val) v[i]

/-- `RDST`: `RDH 0` to `RDH 7`. -/
def rdst : List Instr := (List.finRange 8).map fun i => .rdh (BitVec.ofNat 8 i.val)

/-- Why the host stopped before the end of a sequence. -/
inductive Stop where
  /-- The last command was not answered `OK`; the state after it. -/
  | answered (st : Status) (s : State)
  /-- The command had no response in this state; the state before it. -/
  | unanswered (s : State)
  /-- The model stopped with a fault. -/
  | fault (f : Fault)
  /-- The model refused. -/
  | refused (r : Refusal)
deriving DecidableEq, Repr

/-- One transaction: the host presents the command of `i` and takes the response (30_encoding.md R60). -/
def transact (i : Instr) (s : State) : Except Stop State :=
  match step (s.present (encode i)) with
  | .next s' =>
    match s'.responses.getLast? with
    | some r => if r.status = .ok then .ok s' else .error (.answered r.status s')
    | none   => .error (.unanswered s)
  | .fault f   => .error (.fault f)
  | .refused r => .error (.refused r)

/-- The host issues a sequence and "stops at the first command that does not" answer `OK` (R73). -/
def issue : List Instr → State → Except Stop State
  | [], s => .ok s
  | i :: is, s =>
    match transact i s with
    | .ok s'   => issue is s'
    | .error e => .error e

/-- The data words of the last `n` responses, oldest first: what the host read with the last `n` commands. -/
def State.lastRead (s : State) (n : Nat) : List Word :=
  (s.responses.drop (s.responses.length - n)).map Response.rdata

/-- The eight words of the last eight responses, none where there are fewer. -/
def State.lastState (s : State) : Option (Vector Word 8) :=
  if h : (s.lastRead 8).length = 8 then some ⟨(s.lastRead 8).toArray, by simp [h]⟩ else none

/-- `RDST` and the eight words it read: the chaining value in `H` as the host keeps it (70_reset_and_hazards.md R226,
45_streaming_host.md R184). -/
def saveState (s : State) : Except Stop (Vector Word 8 × State) :=
  match issue rdst s with
  | .error e => .error e
  | .ok s' =>
    match s'.lastState with
    | some v => .ok (v, s')
    | none   => .error (.unanswered s')

/-- `WRST` with a saved chaining value (R226, R184). -/
def restoreState (v : Vector Word 8) (s : State) : Except Stop State := issue (wrst v) s

end Sys2Proof.Machine
end

