-- ==== Sys2Proof/Machine/StreamingHost.lean ====
section
/-! DEFINITION. Machine/StreamingHost.lean: the host-side contract StreamingHasher over `compressFn`
(45_streaming_host.md R170 to R183). It is host software, not engine state (10_state.md R25). -/

namespace Sys2Proof.Machine

/-! ### Bytes and words (20_memory.md R43, R44) -/

/-- The big-endian word of four bytes in index order: the first byte in bits 31:24. -/
def packWord (m0 m1 m2 m3 : Byte) : Word := m0 ++ m1 ++ m2 ++ m3

/-- `words(blk)[j]` = bytes `4j` to `4j+3` of the block, big-endian (R43). -/
def blockToWords (m : Vector Byte 64) : Vector Word 16 :=
  Vector.ofFn fun j : Fin 16 =>
    packWord m[4 * j.val] m[4 * j.val + 1] m[4 * j.val + 2] m[4 * j.val + 3]

/-- A word's bytes, most significant first. -/
def wordBytes (v : Word) : List Byte :=
  [v.extractLsb' 24 8, v.extractLsb' 16 8, v.extractLsb' 8 8, v.extractLsb' 0 8]

/-- `digest_bytes` (R178): the eight words in index order, each most significant byte first. -/
def digestBytes (s : Vector Word 8) : List Byte := s.toList.flatMap wordBytes

/-- The eight bytes of the length, most significant first (R176). -/
def be64 (l : BitVec 64) : List Byte := (List.range 8).map fun k => l.extractLsb' (56 - 8 * k) 8

/-! ### Padding (R176) -/

/-- The number of zero bytes: `(55 - r) mod 64` for `r` buffered bytes, `r` at most 63 (written without a negative
difference). -/
def padZeros (r : Nat) : Nat := (119 - r) % 64

/-- `pad(r, L)`: the byte 0x80, the zero bytes, the length in bits. -/
def pad (r : Nat) (l : BitVec 64) : List Byte := [0x80] ++ List.replicate (padZeros r) 0 ++ be64 l

/-! ### The context (R170, R172) -/

/-- The lifecycle flag (R170, R173). -/
inductive Phase where
  | ready | absorbing | finalized
deriving DecidableEq, Repr

/-- The number of a phase where one is wanted (R170). -/
def Phase.code : Phase → Nat
  | .ready     => 0
  | .absorbing => 1
  | .finalized => 2

/-- HasherContext (R170). -/
structure HasherContext where
  state  : Vector Word 8
  buf    : List Byte
  bitlen : BitVec 64
  phase  : Phase
deriving DecidableEq, Repr

/-- Why a host operation fails; the context is then unchanged and no command is issued. -/
inductive HostError where
  /-- `InvalidState`: update or finalize on a finalized context (R179). -/
  | invalidState
  /-- `update` past 2^64 - 1 bits: outside its precondition, refused (R183). -/
  | lengthBound
deriving DecidableEq, Repr

/-- A new context (R172). -/
def HasherContext.new : HasherContext where
  state := iv
  buf := []
  bitlen := 0
  phase := .ready

/-! ### Absorbing whole blocks (R174) -/

/-- The first 64 bytes and the rest, none for a shorter list. -/
def takeBlock (l : List Byte) : Option (Vector Byte 64 × List Byte) :=
  if h : 64 ≤ l.length then some (⟨(l.take 64).toArray, by simp [h]⟩, l.drop 64) else none

/-- The loop "while len(buf) >= 64" of R174, for at most `n` blocks: each block is compressed into the state and its
bytes are discarded. -/
def absorbBlocks : Nat → Vector Word 8 → List Byte → Vector Word 8 × List Byte
  | 0, st, buf => (st, buf)
  | n + 1, st, buf =>
    match takeBlock buf with
    | some (blk, rest) => absorbBlocks n (compressFn st (blockToWords blk)) rest
    | none             => (st, buf)

/-- The loop run to its end: a list holds `length / 64` whole blocks. -/
def absorb (st : Vector Word 8) (buf : List Byte) : Vector Word 8 × List Byte :=
  absorbBlocks (buf.length / 64) st buf

/-! ### Operations -/

/-- The bound of R183: the counter does not pass 2^64 - 1. -/
def withinBound (bitlen : BitVec 64) (n : Nat) : Bool := decide (bitlen.toNat + 8 * n < 2 ^ 64)

/-- `update(bytes)` (R174). -/
def HasherContext.update (ctx : HasherContext) (bytes : List Byte) : Except HostError HasherContext :=
  if ctx.phase = .finalized then .error .invalidState
  else if withinBound ctx.bitlen bytes.length then
    let r := absorb ctx.state (ctx.buf ++ bytes)
    .ok { state := r.1, buf := r.2, bitlen := ctx.bitlen + BitVec.ofNat 64 (8 * bytes.length), phase := .absorbing }
  else .error .lengthBound

/-- `finalize()` (R175): the context after it and the 32 digest bytes. -/
def HasherContext.finalize (ctx : HasherContext) : Except HostError (HasherContext × List Byte) :=
  if ctx.phase = .finalized then .error .invalidState
  else
    let st := (absorb ctx.state (ctx.buf ++ pad ctx.buf.length ctx.bitlen)).1
    .ok ({ ctx with state := st, buf := [], phase := .finalized }, digestBytes st)

/-- `reset()` (R177): legal in every phase. It touches the whole context, so it does not depend on the one it resets. -/
def HasherContext.reset (_ : HasherContext) : HasherContext where
  state := iv
  buf := []
  bitlen := 0
  phase := .ready

/-- Several `update` calls in order, stopping at the first that fails. -/
def HasherContext.updates (ctx : HasherContext) : List (List Byte) → Except HostError HasherContext
  | [] => .ok ctx
  | bytes :: more =>
    match ctx.update bytes with
    | .ok ctx' => ctx'.updates more
    | .error e => .error e

/-- The padded message of R180. -/
def paddedMessage (msg : List Byte) : List Byte :=
  msg ++ pad (msg.length % 64) (BitVec.ofNat 64 (8 * msg.length))

/-- `sha256(msg)` (R180), for `len(msg) < 2^61`; a longer message is refused (R183). -/
def sha256 (msg : List Byte) : Except HostError (List Byte) :=
  if withinBound 0 msg.length then .ok (digestBytes (absorb iv (paddedMessage msg)).1) else .error .lengthBound

end Sys2Proof.Machine
end

