-- ==== Sys2Proof/Machine/EngineHost.lean ====
section
/-! DEFINITION. Machine/EngineHost.lean: the host layer driving the engine with commands, one context per engine: the
context's running State IS the engine's `H` (45_streaming_host.md R170, and the lines "on the engine" of R172 to R178). -/

namespace Sys2Proof.Machine

/-- What the host keeps beside an engine that holds its running State (R170). -/
structure HostContext where
  buf    : List Byte
  bitlen : BitVec 64
  phase  : Phase
deriving DecidableEq, Repr

/-- Why a driven operation ends early. -/
inductive HostStop where
  /-- The host's own error: nothing was issued (R179, R183). -/
  | host (e : HostError)
  /-- A command of the sequence was not answered `OK` (30_encoding.md R73). -/
  | engine (e : Stop)
deriving DecidableEq, Repr

/-- The context of R170 whose running State is `v`. -/
def HostContext.withState (c : HostContext) (v : Vector Word 8) : HasherContext where
  state := v
  buf := c.buf
  bitlen := c.bitlen
  phase := c.phase

/-- The context of R170 when the engine holds its running State: the host's part with the engine's `H`. -/
def HostContext.withEngine (c : HostContext) (s : State) : HasherContext := c.withState s.h

/-- The host's part of a context. -/
def HasherContext.hostPart (ctx : HasherContext) : HostContext where
  buf := ctx.buf
  bitlen := ctx.bitlen
  phase := ctx.phase

/-- The loop of R174 on the engine: `HASHBLK words(blk)` for each whole block, at most `n`. -/
def driveBlocks : Nat → State → List Byte → Except Stop (State × List Byte)
  | 0, s, buf => .ok (s, buf)
  | n + 1, s, buf =>
    match takeBlock buf with
    | none => .ok (s, buf)
    | some (blk, rest) =>
      match issue (hashblk (blockToWords blk)) s with
      | .ok s'   => driveBlocks n s' rest
      | .error e => .error e

/-- `reset()` on the engine (R177): `LDIV`; the host clears its buffer and counter. Creation is the same (R172). -/
def driveReset (s : State) : Except HostStop (HostContext × State) :=
  match issue [.ldiv] s with
  | .ok s'   => .ok ({ buf := [], bitlen := 0, phase := .ready }, s')
  | .error e => .error (.engine e)

/-- `update(bytes)` on the engine (R174). -/
def driveUpdate (c : HostContext) (bytes : List Byte) (s : State) : Except HostStop (HostContext × State) :=
  if c.phase = .finalized then .error (.host .invalidState)
  else if withinBound c.bitlen bytes.length then
    match driveBlocks ((c.buf ++ bytes).length / 64) s (c.buf ++ bytes) with
    | .ok (s', rest) =>
      .ok ({ buf := rest, bitlen := c.bitlen + BitVec.ofNat 64 (8 * bytes.length), phase := .absorbing }, s')
    | .error e => .error (.engine e)
  else .error (.host .lengthBound)

/-- `finalize()` on the engine (R175, R178): the padded tail as HASHBLK groups, then `RDST`; the host splits the eight
words it read into the digest bytes. -/
def driveFinalize (c : HostContext) (s : State) : Except HostStop (HostContext × State × List Byte) :=
  if c.phase = .finalized then .error (.host .invalidState)
  else
    let tail := c.buf ++ pad c.buf.length c.bitlen
    match driveBlocks (tail.length / 64) s tail with
    | .error e => .error (.engine e)
    | .ok (s', _) =>
      match saveState s' with
      | .ok (v, s'') => .ok ({ c with buf := [], phase := .finalized }, s'', digestBytes v)
      | .error e     => .error (.engine e)

/-! ### Several contexts on one engine (R184)

Each context keeps its running State itself. `update` and `finalize` bring it into the engine with `WRST` before and
take it out with `RDST` after. A call that fails by its own check issues nothing (R179), so the check comes first.
`reset()` and creation of such a context concern the host alone: `HasherContext.reset`, `HasherContext.new`. -/

/-- `WRST state`, an operation with the engine, `RDST`: what the operation leaves, its result, and the State read. -/
def onSharedEngine {α : Type} (v : Vector Word 8) (op : State → Except HostStop (α × State)) (s : State) :
    Except HostStop (α × Vector Word 8 × State) :=
  match restoreState v s with
  | .error e => .error (.engine e)
  | .ok s1 =>
    match op s1 with
    | .error e => .error e
    | .ok (a, s2) =>
      match saveState s2 with
      | .error e     => .error (.engine e)
      | .ok (v', s3) => .ok (a, v', s3)

/-- `update(bytes)` for a context that shares the engine (R184). -/
def sharedUpdate (ctx : HasherContext) (bytes : List Byte) (s : State) : Except HostStop (HasherContext × State) :=
  if ctx.phase = .finalized then .error (.host .invalidState)
  else if withinBound ctx.bitlen bytes.length then
    match onSharedEngine ctx.state (driveUpdate ctx.hostPart bytes) s with
    | .ok (c, v, s') => .ok (c.withState v, s')
    | .error e       => .error e
  else .error (.host .lengthBound)

/-- `finalize()` for a context that shares the engine (R184). -/
def sharedFinalize (ctx : HasherContext) (s : State) : Except HostStop (HasherContext × State × List Byte) :=
  if ctx.phase = .finalized then .error (.host .invalidState)
  else
    let op := fun s1 => (driveFinalize ctx.hostPart s1).map fun r => ((r.1, r.2.2), r.2.1)
    match onSharedEngine ctx.state op s with
    | .ok ((c, digest), v, s') => .ok (c.withState v, s', digest)
    | .error e                 => .error e

end Sys2Proof.Machine
end

