-- ==== Sys2Proof/Safety.lean ====
section
/-! DEFINITION. Safety.lean: what claims say about states: the invariants of 10_state.md R34 and of the response
channel (30_encoding.md R63, 60_exceptions.md R190), and equality of the engine's state. -/

namespace Sys2Proof

open Sys2Proof.Machine

/-- `B[j]` holds a value if and only if `BV[j] = 1` (10_state.md R25, R34 d). -/
abbrev Machine.State.Coherent (s : State) : Prop := ∀ j : Fin 16, (s.b[j]).isSome = s.bv.getLsbD j.val

/-- A response the engine may give: never status 2 (60_exceptions.md R190), and `rdata = 0` in every failed command
(30_encoding.md R63). -/
abbrev Machine.Response.Legal (r : Response) : Prop :=
  r.status ≠ .invalidState ∧ (r.status ≠ .ok → r.rdata = 0)

/-- Every response returned so far is one the engine may give. -/
abbrev Machine.State.ResponsesLegal (s : State) : Prop := ∀ r ∈ s.responses, r.Legal

/-- The engine's architectural state `(H, B, BV)` (10_state.md R25) is the same in both states. -/
abbrev Machine.State.SameEngine (s t : State) : Prop := t.h = s.h ∧ t.b = s.b ∧ t.bv = s.bv

/-- The next input is this command. -/
abbrev Machine.State.NextCommand (s : State) (c : Command) : Prop := s.inputs.head? = some (.command c)

/-- The context has absorbed exactly the bytes `msg` (45_streaming_host.md R171): the counter is their number of bits,
`state` is the result of compressing their whole blocks in order from `IV`, `buf` is what is left over. -/
abbrev Machine.HasherContext.Represents (ctx : HasherContext) (msg : List Byte) : Prop :=
  ctx.phase ≠ .finalized ∧ ctx.bitlen.toNat = 8 * msg.length ∧ (ctx.state, ctx.buf) = absorb iv msg

/-- How many of the inputs are commands. -/
def commandCount (inputs : List HostInput) : Nat := (inputs.filter (fun i => i ≠ .resetEvent)).length

end Sys2Proof
end

