-- ==== Sys2Proof/Certificates/Slice0/Obligations.lean ====
section
/-! DEFINITION. Certificates/Slice0/Obligations.lean: the statements for the provers, each about every state or every
operand it names. -/

open Sys2Proof Sys2Proof.Machine

/-! ### The seven commands: encoding, result, frame, completion -/

/-- R131. LDIV answers `(0,0)` and leaves the eight IV words in `H`; `B`, `BV` and the inputs are unchanged. Its word is
exactly 0x01000000, whatever `wdata`; every other word with `op = 0x01` is illegal. -/
def Obligations.LdivLoadsTheInitialValues : Prop :=
  (∀ wdata, decode ⟨0x01000000, wdata⟩ = .ok .ldiv) ∧
  (∀ (c wdata : Word) (s : State), opField c = 0x01 → c ≠ 0x01000000 →
    step (s.present ⟨c, wdata⟩) = .next (s.answer .illegalCommand 0)) ∧
  ∀ s : State, ∃ t, exec .ldiv s = .next t ∧
    t.h = #v[0x6a09e667, 0xbb67ae85, 0x3c6ef372, 0xa54ff53a, 0x510e527f, 0x9b05688c, 0x1f83d9ab, 0x5be0cd19] ∧
    t.b = s.b ∧ t.bv = s.bv ∧ t.inputs = s.inputs ∧ t.responses = s.responses ++ [⟨.ok, 0⟩]

/-- R132. WRH writes one state word and nothing else, for every data word; an index above 7 is an illegal word. -/
def Obligations.WrhWritesOneStateWord : Prop :=
  (∀ (idx : Index) wdata, idx.toNat ≤ 7 → decode ⟨0x02000000 ||| idx.zeroExtend 32, wdata⟩ = .ok (.wrh idx wdata)) ∧
  (∀ (idx : Index) (wdata : Word) (s : State), 7 < idx.toNat →
    step (s.present ⟨0x02000000 ||| idx.zeroExtend 32, wdata⟩) = .next (s.answer .illegalCommand 0)) ∧
  ∀ (idx : Index) (data : Word) (s : State), idx.toNat ≤ 7 → ∃ t, exec (.wrh idx data) s = .next t ∧
    (∀ k : Fin 8, t.h[k] = if k.val = idx.toNat then data else s.h[k]) ∧
    t.b = s.b ∧ t.bv = s.bv ∧ t.inputs = s.inputs ∧ t.responses = s.responses ++ [⟨.ok, 0⟩]

/-- R133. RDH answers with the state word it names and changes nothing. -/
def Obligations.RdhReadsOneStateWord : Prop :=
  (∀ (idx : Index) wdata, idx.toNat ≤ 7 → decode ⟨0x03000000 ||| idx.zeroExtend 32, wdata⟩ = .ok (.rdh idx)) ∧
  (∀ (idx : Index) (wdata : Word) (s : State), 7 < idx.toNat →
    step (s.present ⟨0x03000000 ||| idx.zeroExtend 32, wdata⟩) = .next (s.answer .illegalCommand 0)) ∧
  ∀ (idx : Index) (s : State) (hi : idx.toNat < 8), ∃ t, exec (.rdh idx) s = .next t ∧
    s.SameEngine t ∧ t.inputs = s.inputs ∧ t.responses = s.responses ++ [⟨.ok, s.h[idx.toNat]⟩]

/-- R150. WRB writes one block word and sets its mask bit, and nothing else. -/
def Obligations.WrbWritesOneBlockWordAndItsMaskBit : Prop :=
  (∀ (idx : Index) wdata, idx.toNat ≤ 15 → decode ⟨0x04000000 ||| idx.zeroExtend 32, wdata⟩ = .ok (.wrb idx wdata)) ∧
  (∀ (idx : Index) (wdata : Word) (s : State), 15 < idx.toNat →
    step (s.present ⟨0x04000000 ||| idx.zeroExtend 32, wdata⟩) = .next (s.answer .illegalCommand 0)) ∧
  ∀ (idx : Index) (data : Word) (s : State), idx.toNat ≤ 15 → ∃ t, exec (.wrb idx data) s = .next t ∧
    (∀ k : Fin 16, t.b[k] = if k.val = idx.toNat then some data else s.b[k]) ∧
    (∀ k : Fin 16, t.bv.getLsbD k.val = (decide (k.val = idx.toNat) || s.bv.getLsbD k.val)) ∧
    t.h = s.h ∧ t.inputs = s.inputs ∧ t.responses = s.responses ++ [⟨.ok, 0⟩]

/-- R151. COMPRESS: refused with `(1,0)` and no change unless `BV = 0xffff`; else `H` becomes `compress_fn(H, B)`, `BV`
becomes 0 and every `B[j]` holds no value. -/
def Obligations.CompressRefinesTheCompressionFunction : Prop :=
  (∀ wdata, decode ⟨0x05000000, wdata⟩ = .ok .compress) ∧
  (∀ (c wdata : Word) (s : State), opField c = 0x05 → c ≠ 0x05000000 →
    step (s.present ⟨c, wdata⟩) = .next (s.answer .illegalCommand 0)) ∧
  (∀ s : State, s.bv ≠ 0xffff → ∃ t, exec .compress s = .next t ∧
    s.SameEngine t ∧ t.inputs = s.inputs ∧ t.responses = s.responses ++ [⟨.invalidArgument, 0⟩]) ∧
  ∀ (s : State) (w : Vector Word 16), s.bv = 0xffff → (∀ j : Fin 16, s.b[j] = some w[j]) →
    ∃ t, exec .compress s = .next t ∧
      t.h = compressFn s.h w ∧ (∀ j : Fin 16, t.b[j] = none) ∧ t.bv = 0 ∧
      t.inputs = s.inputs ∧ t.responses = s.responses ++ [⟨.ok, 0⟩]

/-- R155. STAT answers with `BV` in bits 15:0 and zeros above, and changes nothing. -/
def Obligations.StatReadsTheMask : Prop :=
  (∀ wdata, decode ⟨0x06000000, wdata⟩ = .ok .stat) ∧
  (∀ (c wdata : Word) (s : State), opField c = 0x06 → c ≠ 0x06000000 →
    step (s.present ⟨c, wdata⟩) = .next (s.answer .illegalCommand 0)) ∧
  ∀ s : State, ∃ t r, exec .stat s = .next t ∧ s.SameEngine t ∧ t.inputs = s.inputs ∧
    t.responses = s.responses ++ [r] ∧ r.status = .ok ∧
    (∀ k : Fin 16, r.rdata.getLsbD k.val = s.bv.getLsbD k.val) ∧
    (∀ k : Nat, 16 ≤ k → r.rdata.getLsbD k = false)

/-- R81. RDK answers with the ROM word it names and changes nothing, in every state. -/
def Obligations.RdkReadsTheRom : Prop :=
  (∀ (idx : Index) wdata, idx.toNat ≤ 63 → decode ⟨0x07000000 ||| idx.zeroExtend 32, wdata⟩ = .ok (.rdk idx)) ∧
  (∀ (idx : Index) (wdata : Word) (s : State), 63 < idx.toNat →
    step (s.present ⟨0x07000000 ||| idx.zeroExtend 32, wdata⟩) = .next (s.answer .illegalCommand 0)) ∧
  ∀ (idx : Index) (s : State) (hi : idx.toNat < 64), ∃ t, exec (.rdk idx) s = .next t ∧
    s.SameEngine t ∧ t.inputs = s.inputs ∧
    t.responses = s.responses ++ [⟨.ok, roundConstant ⟨idx.toNat, hi⟩⟩]

/-- The model's choice (log entry 11): an instruction with an index outside its range, which no command word decodes
to, is answered as 30_encoding.md section 4 answers the word it would be encoded in. -/
def Obligations.IllFormedInstructionsAreAnsweredAsIllegal : Prop :=
  ∀ (i : Instr) (s : State), ¬ WellFormed i → ∃ t, exec i s = .next t ∧
    s.SameEngine t ∧ t.inputs = s.inputs ∧ t.responses = s.responses ++ [⟨.illegalCommand, 0⟩]

/-! ### Encoding -/

/-- Every well-formed instruction is what its own command decodes to: no bit of an operand is dropped. -/
def Obligations.DecodeOfEncode : Prop := ∀ i : Instr, WellFormed i → decode (encode i) = .ok i

/-- A command that decodes gives a well-formed instruction, whose encoding is that command word, and that data word
where the format uses it. -/
def Obligations.EncodeOfDecode : Prop :=
  ∀ (c : Command) (i : Instr), decode c = .ok i →
    WellFormed i ∧ (encode i).cmd = c.cmd ∧ (i.mnemonic.format = .id → (encode i).wdata = c.wdata)

/-- R68. The decoder answers a row exactly for the words that row matches, with `idx = c[7:0]`. -/
def Obligations.DecoderFollowsTheOpcodeMap : Prop :=
  ∀ (c : Word) (m : Mnemonic) (idx : Index),
    decodeWord c = .ok (m, idx) ↔ c &&& m.mask = m.matchBits ∧ idx = c.extractLsb' 0 8

/-- R67. The table of the seven commands, with the legal `idx` of each row; no word matches two rows, and 99 words
match one. -/
def Obligations.OpcodeRowsAreDisjointAndEncode99Words : Prop :=
  (Mnemonic.rows.map fun m => (m, m.opcode, m.format, m.matchBits, m.mask)) =
    [(.ldiv, 0x01, .n, 0x01000000, 0xffffffff), (.wrh, 0x02, .id, 0x02000000, 0xfffffff8),
     (.rdh, 0x03, .i, 0x03000000, 0xfffffff8), (.wrb, 0x04, .id, 0x04000000, 0xfffffff0),
     (.compress, 0x05, .n, 0x05000000, 0xffffffff), (.stat, 0x06, .n, 0x06000000, 0xffffffff),
     (.rdk, 0x07, .i, 0x07000000, 0xffffffc0)] ∧
  (∀ (c : Word) (m : Mnemonic), c &&& m.mask = m.matchBits ↔
    opField c = m.opcode ∧ zField c = 0 ∧ (idxField c).toNat ≤ (match m with
      | .ldiv | .compress | .stat => 0
      | .wrh | .rdh               => 7
      | .wrb                      => 15
      | .rdk                      => 63)) ∧
  (∀ (c : Word) (m m' : Mnemonic), c &&& m.mask = m.matchBits → c &&& m'.mask = m'.matchBits → m = m') ∧
  ∃ ws : List Word, ws.Nodup ∧ ws.length = 99 ∧
    ∀ c : Word, c ∈ ws ↔ ∃ m : Mnemonic, c &&& m.mask = m.matchBits

/-- R70. The illegal words are exactly these, and the engine answers one `(3,0)` and changes nothing. -/
def Obligations.IllegalWordsAreExactlyThese : Prop :=
  (∀ c : Command, (∃ e, decode c = .error e) ↔
    (opField c.cmd = 0 ∨ 8 ≤ (opField c.cmd).toNat) ∨
    zField c.cmd ≠ 0 ∨
    ((opField c.cmd = 1 ∨ opField c.cmd = 5 ∨ opField c.cmd = 6) ∧ idxField c.cmd ≠ 0) ∨
    ((opField c.cmd = 2 ∨ opField c.cmd = 3) ∧ 7 < (idxField c.cmd).toNat) ∨
    (opField c.cmd = 4 ∧ 15 < (idxField c.cmd).toNat) ∨
    (opField c.cmd = 7 ∧ 63 < (idxField c.cmd).toNat)) ∧
  ∀ (s : State) (c : Command) (e : Illegal), decode c = .error e → ∃ t, step (s.present c) = .next t ∧
    s.SameEngine t ∧ t.inputs = s.inputs ∧ t.responses = s.responses ++ [⟨.illegalCommand, 0⟩]

/-- R62. `wdata` does not affect decoding, legality, state or response unless the command has format ID. -/
def Obligations.WdataIsIgnoredOutsideFormatId : Prop :=
  ∀ (c w w' : Word), (∀ m idx, decodeWord c = .ok (m, idx) → m.format ≠ .id) →
    decode ⟨c, w⟩ = decode ⟨c, w'⟩ ∧ ∀ s : State, step (s.present ⟨c, w⟩) = step (s.present ⟨c, w'⟩)

/-- A few command words written out from the spec's encodings (95_test_vectors.md section 5.1) decode to what they
stand for. -/
def Obligations.SampleWordsDecodeAsTheSpecSays : Prop :=
  decode ⟨0x02000007, 0xffffffff⟩ = .ok (.wrh 7 0xffffffff) ∧ decode ⟨0x03000007, 0⟩ = .ok (.rdh 7) ∧
  decode ⟨0x0400000f, 0x00000018⟩ = .ok (.wrb 15 0x00000018) ∧ decode ⟨0x0700003f, 0⟩ = .ok (.rdk 63)

/-! ### The step -/

/-- A step with a command at the head of the inputs runs the instruction it decodes to, on the state without that
input. -/
def Obligations.StepRunsTheDecodedInstruction : Prop :=
  ∀ (s : State) (c : Command) (rest : List HostInput) (i : Instr),
    s.inputs = .command c :: rest → decode c = .ok i → WellFormed i → step s = exec i { s with inputs := rest }

/-- R215. The reset event gives the reset state, whatever came before; R33's values. -/
def Obligations.ResetEventGivesTheResetState : Prop :=
  ∀ (s : State) (rest : List HostInput), s.inputs = .resetEvent :: rest → ∃ t, step s = .next t ∧
    State.reset.SameEngine t ∧
    t.h = #v[0x6a09e667, 0xbb67ae85, 0x3c6ef372, 0xa54ff53a, 0x510e527f, 0x9b05688c, 0x1f83d9ab, 0x5be0cd19] ∧
    t.bv = 0 ∧ ∀ j : Fin 16, t.b[j] = none

/-- The model's choice (log entry 7): the reset event gives no response and leaves the host's side alone. -/
def Obligations.ResetEventGivesNoResponse : Prop :=
  ∀ (s : State) (rest : List HostInput), s.inputs = .resetEvent :: rest → ∃ t, step s = .next t ∧
    t.responses = s.responses ∧ t.inputs = rest

/-- The model's reading (log entry 2): with no input the engine holds its state. -/
def Obligations.IdleEngineHoldsItsState : Prop := ∀ s : State, s.inputs = [] → step s = .next s

/-! ### Invariants and whole-machine rules -/

/-- R34 d as an invariant: `B[j]` holds a value if and only if `BV[j] = 1`. -/
def Obligations.StepKeepsTheBlockCoherent : Prop :=
  ∀ s t : State, s.Coherent → step s = .next t → t.Coherent

/-- The reset state has both invariants. That no response has been returned at reset, so that all of them are legal, is
the model's choice (log entry 1). -/
def Obligations.ResetStateIsCoherent : Prop := State.reset.Coherent ∧ State.reset.ResponsesLegal

/-- The step is total on coherent states: no run from one reads an element that holds no value. -/
def Obligations.CoherentStatesAlwaysStep : Prop := ∀ s : State, s.Coherent → ∃ t, step s = .next t

/-- The engine gives only legal responses: never status 2, and `rdata = 0` with every error. -/
def Obligations.StepKeepsTheResponsesLegal : Prop :=
  ∀ s t : State, s.ResponsesLegal → step s = .next t → t.ResponsesLegal

/-- R190. One response per command, and each status has its one cause; the codes. -/
def Obligations.EachStatusHasItsCause : Prop :=
  (Status.ok.code = 0 ∧ Status.invalidArgument.code = 1 ∧ Status.invalidState.code = 2 ∧
    Status.illegalCommand.code = 3) ∧
  ∀ (s t : State) (c : Command), s.NextCommand c → step s = .next t →
    ∃ r : Response, t.responses = s.responses ++ [r] ∧ t.inputs = s.inputs.tail ∧
      (r.status = .invalidArgument ↔ decode c = .ok .compress ∧ s.bv ≠ 0xffff) ∧
      (r.status = .illegalCommand ↔ ∃ e, decode c = .error e) ∧
      r.status ≠ .invalidState

/-- R193. A command that fails leaves the engine as it was, and repeating it fails the same way. -/
def Obligations.ErrorsLeaveNoTrace : Prop :=
  ∀ (s t : State) (c : Command) (r : Response), s.NextCommand c → step s = .next t →
    t.responses = s.responses ++ [r] → r.status ≠ .ok →
    s.SameEngine t ∧ r.rdata = 0 ∧
    ∃ t', step (t.present c) = .next t' ∧ t'.responses = t.responses ++ [r] ∧ s.SameEngine t'

/-- Only the reset event, LDIV, WRH and a successful COMPRESS change `H`. -/
def Obligations.OnlyFourThingsChangeH : Prop :=
  ∀ s t : State, step s = .next t → t.h ≠ s.h →
    s.inputs.head? = some .resetEvent ∨
    ∃ c, s.NextCommand c ∧ (decode c = .ok .ldiv ∨ (∃ idx d, decode c = .ok (.wrh idx d)) ∨
      (decode c = .ok .compress ∧ s.bv = 0xffff))

/-- `BV` is set bit by bit by WRB, cleared as a whole by the reset event and a successful COMPRESS, and never changed
otherwise. -/
def Obligations.MaskChangesOnlyByWrbCompressAndReset : Prop :=
  ∀ s t : State, step s = .next t →
    t.bv = s.bv ∨
    (s.inputs.head? = some .resetEvent ∧ t.bv = 0) ∨
    ∃ c, s.NextCommand c ∧
      ((decode c = .ok .compress ∧ s.bv = 0xffff ∧ t.bv = 0) ∨
       ∃ idx d, decode c = .ok (.wrb idx d) ∧
        ∀ k : Fin 16, t.bv.getLsbD k.val = (decide (k.val = idx.toNat) || s.bv.getLsbD k.val))

/-- Every input is taken, and every command is answered exactly once: from a coherent state, as many steps as there are
inputs leave none, with one more response for each command. That a reset event among the inputs gets no response and
keeps the earlier responses and the later inputs is the model's choice (log entry 7). -/
def Obligations.EveryCommandIsAnsweredOnce : Prop :=
  ∀ s : State, s.Coherent → ∃ t, core.run s.inputs.length s = .next t ∧ t.inputs = [] ∧
    t.responses.length = s.responses.length + commandCount s.inputs ∧ s.responses <+: t.responses

/-- Reads have no side effect on the engine, and WRH, WRB and LDIV are idempotent, while a second COMPRESS fails. -/
def Obligations.ReadsAndWritesAreIdempotentAndCompressIsNot : Prop :=
  (∀ (i : Instr) (s t : State), (i.mnemonic = .rdh ∨ i.mnemonic = .rdk ∨ i.mnemonic = .stat) →
    exec i s = .next t → s.SameEngine t ∧ ∃ r, exec i t = .next (t.answer r.status r.rdata) ∧
      t.responses = s.responses ++ [r]) ∧
  (∀ (i : Instr) (s t u : State), (i.mnemonic = .wrh ∨ i.mnemonic = .wrb ∨ i.mnemonic = .ldiv) →
    exec i s = .next t → exec i t = .next u → t.SameEngine u) ∧
  (∀ s t : State, s.bv = 0xffff → exec .compress s = .next t →
    exec .compress t = .next (t.answer .invalidArgument 0))

/-! ### The constants -/

/-- The primes beside the ROM's words are the first 64 in order, and `K[t]` is the first 32 bits of the fractional part
of the cube root of the `t`-th prime: `floor(cbrt(p * 2^96)) mod 2^32`. That the bits are truncated and not rounded is
the spec's own reading (40_round_constants.md section 1, 92_eei_decisions.md D15). -/
def Obligations.RoundConstantsAreCubeRootFractions : Prop :=
  ∀ t : Fin 64, rom[t].prime = Nat.nth Nat.Prime t.val ∧
    ∃ n : Nat, n ^ 3 ≤ Nat.nth Nat.Prime t.val * 2 ^ 96 ∧ Nat.nth Nat.Prime t.val * 2 ^ 96 < (n + 1) ^ 3 ∧
    (roundConstant t).toNat = n % 2 ^ 32

/-- The IV words are the first 32 bits of the fractional parts of the square roots of the first eight primes (the
spec's own remark, 10_state.md section 1). -/
def Obligations.InitialValuesAreSquareRootFractions : Prop :=
  ∀ i : Fin 8, ∃ n : Nat, n ^ 2 ≤ Nat.nth Nat.Prime i.val * 2 ^ 64 ∧ Nat.nth Nat.Prime i.val * 2 ^ 64 < (n + 1) ^ 2 ∧
    iv[i].toNat = n % 2 ^ 32

/-! ### Word functions, bit by bit -/

/-- R90. `rotr` is the two shifts joined; bit `k` of `rotr(x, n)` is bit `(k + n) mod 32` of `x`. -/
def Obligations.RotrPermutesTheBits : Prop :=
  ∀ (x : Word) (n : Nat) (hn : 0 < n ∧ n < 32),
    rotr x n hn = (x >>> n) ||| (x <<< (32 - n)) ∧
    ∀ k : Nat, k < 32 → (rotr x n hn).getLsbD k = x.getLsbD ((k + n) % 32)

/-- R91. `shr(x, n) = floor(x / 2^n)`: bit `k` is bit `k + n` of `x`, and the top `n` bits are zero. -/
def Obligations.ShrIsFloorDivision : Prop :=
  ∀ (x : Word) (n : Nat) (hn : 0 < n ∧ n < 32),
    (shr x n hn).toNat = x.toNat / 2 ^ n ∧
    ∀ k : Nat, k < 32 → (shr x n hn).getLsbD k = (decide (k + n ≤ 31) && x.getLsbD (k + n))

/-- R92, R93. The two functions of the expander, and their bits. -/
def Obligations.SmallSigmaBits : Prop :=
  (∀ x : Word, ssig0 x = rotr x 7 ^^^ rotr x 18 ^^^ shr x 3 ∧ ssig1 x = rotr x 17 ^^^ rotr x 19 ^^^ shr x 10) ∧
  ∀ (x : Word) (k : Nat), k < 32 →
    (ssig0 x).getLsbD k =
      (x.getLsbD ((k + 7) % 32) ^^ x.getLsbD ((k + 18) % 32) ^^ (if k ≤ 28 then x.getLsbD (k + 3) else false)) ∧
    (ssig1 x).getLsbD k =
      (x.getLsbD ((k + 17) % 32) ^^ x.getLsbD ((k + 19) % 32) ^^ (if k ≤ 21 then x.getLsbD (k + 10) else false))

/-- R110, R111. The two functions of the round ALU, and their bits. -/
def Obligations.BigSigmaBits : Prop :=
  (∀ x : Word, bsig0 x = rotr x 2 ^^^ rotr x 13 ^^^ rotr x 22 ∧ bsig1 x = rotr x 6 ^^^ rotr x 11 ^^^ rotr x 25) ∧
  ∀ (x : Word) (k : Nat), k < 32 →
    (bsig0 x).getLsbD k =
      (x.getLsbD ((k + 2) % 32) ^^ x.getLsbD ((k + 13) % 32) ^^ x.getLsbD ((k + 22) % 32)) ∧
    (bsig1 x).getLsbD k =
      (x.getLsbD ((k + 6) % 32) ^^ x.getLsbD ((k + 11) % 32) ^^ x.getLsbD ((k + 25) % 32))

/-- R112, R113. `ch` selects bit by bit; a bit of `maj` is 1 when at least two of the three bits are; `maj` is
symmetric. -/
def Obligations.ChooseSelectsAndMajorityCounts : Prop :=
  (∀ (x y z : Word), ch x y z = (x &&& y) ^^^ ((~~~x) &&& z) ∧
    maj x y z = (x &&& y) ^^^ (x &&& z) ^^^ (y &&& z) ∧ maj x y z = maj y x z ∧ maj x y z = maj x z y) ∧
  ∀ (x y z : Word) (k : Nat), k < 32 →
    (ch x y z).getLsbD k = (if x.getLsbD k then y.getLsbD k else z.getLsbD k) ∧
    (maj x y z).getLsbD k =
      decide (2 ≤ (x.getLsbD k).toNat + (y.getLsbD k).toNat + (z.getLsbD k).toNat)

/-! ### Micro-operations -/

/-- R96. SLOAD copies the sixteen block words into `W[0..15]` and touches nothing else. -/
def Obligations.SloadCopiesTheBlock : Prop :=
  ∀ (s : State) (x : Transient) (w : Vector Word 16), (∀ j : Fin 16, s.b[j] = some w[j]) →
    ∃ x', MicroOp.sload.run s x = .ok (s, x') ∧ x'.wr = x.wr ∧
      (∀ j : Fin 16, x'.w[j.val] = some w[j]) ∧ (∀ t : Fin 64, 16 ≤ t.val → x'.w[t] = x.w[t])

/-- R95. `SEXP t` writes `W[t]` by the recurrence and touches nothing else. -/
def Obligations.SexpComputesTheRecurrence : Prop :=
  ∀ (s : State) (x : Transient) (t : Fin 64) (_ : 16 ≤ t.val) (w16 w15 w7 w2 : Word),
    x.w[t.val - 16] = some w16 → x.w[t.val - 15] = some w15 → x.w[t.val - 7] = some w7 → x.w[t.val - 2] = some w2 →
    ∃ x', (MicroOp.sexp t).run s x = .ok (s, x') ∧ x'.wr = x.wr ∧
      x'.w[t] = some (w16 + ssig0 w15 + w7 + ssig1 w2) ∧ (∀ u : Fin 64, u ≠ t → x'.w[u] = x.w[u])

/-- R98. `sched` satisfies the recurrence, and SLOAD followed by all 48 SEXP compute it, from any transient state. -/
def Obligations.SchedIsWhatTheScheduleMicroOpsCompute : Prop :=
  ∀ w : Vector Word 16,
    (∀ t : Fin 64, (h : t.val < 16) → (sched w)[t] = w[t.val]) ∧
    (∀ t : Fin 64, 16 ≤ t.val → (sched w)[t] =
      (sched w)[t.val - 16] + ssig0 (sched w)[t.val - 15] + (sched w)[t.val - 7] + ssig1 (sched w)[t.val - 2]) ∧
    ∀ (s : State) (x : Transient), (∀ j : Fin 16, s.b[j] = some w[j]) →
      ∃ x', runMicroOps (.sload :: ((List.finRange 64).drop 16).map .sexp) s x = .ok (s, x') ∧ x'.wr = x.wr ∧
        ∀ t : Fin 64, x'.w[t] = some (sched w)[t]

/-- R117. WINIT and ROUND 0 to 63 compute `rounds`, given by its recurrence on the eight working registers. -/
def Obligations.RoundsIsWhatTheRoundMicroOpsCompute : Prop :=
  ∀ (s : State) (x : Transient) (w : Vector Word 64) (r : Nat → Working),
    (∀ t : Fin 64, x.w[t] = some w[t]) →
    r 0 = ⟨s.h[0], s.h[1], s.h[2], s.h[3], s.h[4], s.h[5], s.h[6], s.h[7]⟩ →
    (∀ t : Fin 64, ∃ t1 t2 : Word,
      t1 = (r t).h + bsig1 (r t).e + ch (r t).e (r t).f (r t).g + roundConstant t + w[t] ∧
      t2 = bsig0 (r t).a + maj (r t).a (r t).b (r t).c ∧
      r (t + 1) = ⟨t1 + t2, (r t).a, (r t).b, (r t).c, (r t).d + t1, (r t).e, (r t).f, (r t).g⟩) →
    runMicroOps (.winit :: (List.finRange 64).map .round) s x = .ok (s, { x with wr := some (r 64) }) ∧
    rounds s.h w = #v[(r 64).a, (r 64).b, (r 64).c, (r 64).d, (r 64).e, (r 64).f, (r 64).g, (r 64).h]

/-- After four rounds the register chain holds the last four new `a` and the last four new `e`, whatever the constants
and schedule words. -/
def Obligations.FourRoundsReplaceEveryRegister : Prop :=
  ∀ (r0 : Working) (k w : Fin 4 → Word),
    let r1 := roundStep r0 (k 0) (w 0)
    let r2 := roundStep r1 (k 1) (w 1)
    let r3 := roundStep r2 (k 2) (w 2)
    let r4 := roundStep r3 (k 3) (w 3)
    r4.toVector = #v[r4.a, r3.a, r2.a, r1.a, r4.e, r3.e, r2.e, r1.e]

/-- R130. FOLD adds the working registers to `H` word by word, and no other micro-operation writes the state. -/
def Obligations.FoldIsTheOnlyMicroOpThatWritesState : Prop :=
  (∀ (s : State) (x : Transient) (r : Working), x.wr = some r → ∃ s', MicroOp.fold.run s x = .ok (s', x) ∧
    (∀ i : Fin 8, s'.h[i] = s.h[i] + r.toVector[i]) ∧
    s'.b = s.b ∧ s'.bv = s.bv ∧ s'.inputs = s.inputs ∧ s'.responses = s.responses) ∧
  ∀ (m : MicroOp) (s s' : State) (x x' : Transient), m ≠ .fold → m.run s x = .ok (s', x') → s' = s

/-- R154. `compress_fn` is the schedule, the rounds and one elementwise addition, in that composition. -/
def Obligations.CompressFnIsScheduleRoundsAndFold : Prop :=
  ∀ (s : Vector Word 8) (b : Vector Word 16), ∃ (w : Vector Word 64) (r : Vector Word 8),
    w = sched b ∧ r = rounds s w ∧ ∀ i : Fin 8, (compressFn s b)[i] = s[i] + r[i]

/-- The four values 44_command_sequencer.md section 3 computes, among them the digests of "abc" and of the empty
message (the corrected one of 90_conflicts.md C1). -/
def Obligations.CompressFnGivesTheComputedValues : Prop :=
  compressFn iv #v[0x61626380, 0, 0, 0, 0, 0, 0, 0, 0, 0, 0, 0, 0, 0, 0, 0x00000018] =
    #v[0xba7816bf, 0x8f01cfea, 0x414140de, 0x5dae2223, 0xb00361a3, 0x96177a9c, 0xb410ff61, 0xf20015ad] ∧
  compressFn iv #v[0x80000000, 0, 0, 0, 0, 0, 0, 0, 0, 0, 0, 0, 0, 0, 0, 0] =
    #v[0xe3b0c442, 0x98fc1c14, 0x9afbf4c8, 0x996fb924, 0x27ae41e4, 0x649b934c, 0xa495991b, 0x7852b855] ∧
  compressFn iv (Vector.replicate 16 0) =
    #v[0xda5698be, 0x17b9b469, 0x62335799, 0x779fbeca, 0x8ce5d491, 0xc0d26243, 0xbafef9ea, 0x1837a9d8] ∧
  compressFn (Vector.replicate 8 0) (Vector.replicate 16 0) =
    #v[0x7ca51614, 0x425c3ba8, 0xce54dd2f, 0xc2020ae7, 0xb6e574d1, 0x98136d0f, 0xae7e26cc, 0xbf0be7a6]

/-! ### Pseudo-instructions on the engine -/

/-- The order of two WRB to different words does not matter. -/
def Obligations.BlockWritesCommute : Prop :=
  ∀ (i j : Index) (v w : Word) (s t1 t2 u1 u2 : State), i ≠ j →
    exec (.wrb i v) s = .next t1 → exec (.wrb j w) t1 = .next t2 →
    exec (.wrb j w) s = .next u1 → exec (.wrb i v) u1 = .next u2 → t2.SameEngine u2

/-- HASHBLK, from ANY state (also one with a half-written block): `H` becomes `compress_fn(H, w)`, the block is
consumed, and all seventeen commands answer `OK`. -/
def Obligations.HashblkCompressesTheBlock : Prop :=
  ∀ (s : State) (w : Vector Word 16), ∃ t, issue (hashblk w) s = .ok t ∧
    t.h = compressFn s.h w ∧ (∀ j : Fin 16, t.b[j] = none) ∧ t.bv = 0 ∧ t.inputs = s.inputs ∧
    t.responses = s.responses ++ List.replicate 17 ⟨.ok, 0⟩

/-- WRST, HASHBLK, RDST: the eight words read are `compress_fn(v, w)`, whatever came before. -/
def Obligations.WrstHashblkRdstIsCompressFn : Prop :=
  ∀ (s : State) (v : Vector Word 8) (w : Vector Word 16), ∃ t,
    issue (wrst v ++ hashblk w ++ rdst) s = .ok t ∧ t.lastRead 8 = (compressFn v w).toList ∧ t.h = compressFn v w

/-- A chaining value saved with RDST is restored by WRST in any later state, with `B` and `BV` left alone. -/
def Obligations.SavedStateIsRestored : Prop :=
  ∀ (s t : State), ∃ s', saveState s = .ok (s.h, s') ∧ s.SameEngine s' ∧
    ∃ t', restoreState s.h t = .ok t' ∧ t'.h = s.h ∧ t'.b = t.b ∧ t'.bv = t.bv

/-! ### The host layer -/

/-- R43. `B[j]` is the big-endian number of the block's bytes `4j` to `4j+3`. -/
def Obligations.BlockWordsAreBigEndian : Prop :=
  ∀ (m : Vector Byte 64) (j : Fin 16), ((blockToWords m)[j]).toNat =
    m[4 * j.val].toNat * 2 ^ 24 + m[4 * j.val + 1].toNat * 2 ^ 16 + m[4 * j.val + 2].toNat * 2 ^ 8 +
      m[4 * j.val + 3].toNat

/-- R178. Digest byte `4i + k` is `s[i][31-8k : 24-8k]`. -/
def Obligations.DigestBytesAreBigEndian : Prop :=
  ∀ s : Vector Word 8, (digestBytes s).length = 32 ∧
    ∀ (i : Fin 8) (k : Fin 4), (digestBytes s)[4 * i.val + k.val]? = some (s[i].extractLsb' (24 - 8 * k.val) 8)

/-- R176. The padding completes one block for at most 55 buffered bytes and two otherwise; it begins with 0x80, ends in
the length most significant byte first, and is zero between. -/
def Obligations.PaddingCompletesTheBlock : Prop :=
  ∀ (r : Nat) (l : BitVec 64), r ≤ 63 →
    ∃ z, pad r l = [0x80] ++ List.replicate z 0 ++ be64 l ∧ (r + 1 + z) % 64 = 56 ∧
      (∀ z', (r + 1 + z') % 64 = 56 → z ≤ z') ∧
      r + (pad r l).length = (if r ≤ 55 then 64 else 128) ∧
      (be64 l).length = 8 ∧ ∀ k : Fin 8, (be64 l)[k.val]? = some (l.extractLsb' (56 - 8 * k.val) 8)

/-- R173. The complete lifecycle table, for updates inside the length bound of R183; `finalize` on a new context gives
the digest of the empty message. -/
def Obligations.LifecycleFollowsTheTable : Prop :=
  HasherContext.new.phase = .ready ∧
  (∀ (c : HasherContext) (bytes : List Byte), c.phase ≠ .finalized → c.bitlen.toNat + 8 * bytes.length < 2 ^ 64 →
    ∃ c', c.update bytes = .ok c' ∧ c'.phase = .absorbing) ∧
  (∀ c : HasherContext, c.phase ≠ .finalized → ∃ c' d, c.finalize = .ok (c', d) ∧ c'.phase = .finalized) ∧
  (∀ (c : HasherContext) (bytes : List Byte), c.phase = .finalized →
    c.update bytes = .error .invalidState ∧ c.finalize = .error .invalidState) ∧
  (∃ c' d, HasherContext.new.finalize = .ok (c', d) ∧ sha256 [] = .ok d) ∧
  ∀ c : HasherContext, c.reset.phase = .ready

/-- R177. `reset` gives a brand-new context, from any context; on the engine it is LDIV, which always succeeds and
leaves `B` and `BV` alone. -/
def Obligations.HostResetGivesANewContext : Prop :=
  (∀ c : HasherContext, c.reset = HasherContext.new ∧ c.reset.state = iv ∧ c.reset.buf = [] ∧ c.reset.bitlen = 0 ∧
    c.reset.phase = .ready) ∧
  ∀ s : State, ∃ c t, driveReset s = .ok (c, t) ∧ c.buf = [] ∧ c.bitlen = 0 ∧ c.phase = .ready ∧
    t.h = iv ∧ t.b = s.b ∧ t.bv = s.bv

/-- R183. `update` past the bound of the counter is refused, and inside it the counter does not wrap. -/
def Obligations.CounterNeverWraps : Prop :=
  ∀ (c : HasherContext) (bytes : List Byte), c.phase ≠ .finalized →
    (2 ^ 64 ≤ c.bitlen.toNat + 8 * bytes.length → c.update bytes = .error .lengthBound) ∧
    ∀ c', c.update bytes = .ok c' → c'.bitlen.toNat = c.bitlen.toNat + 8 * bytes.length

/-- R171. A context holds what the bytes absorbed so far determine; `update` keeps this and appends its bytes. -/
def Obligations.ContextRepresentsTheBytesAbsorbed : Prop :=
  HasherContext.new.Represents [] ∧
  ∀ (c : HasherContext) (msg : List Byte), c.Represents msg →
    c.buf.length ≤ 63 ∧ c.buf.length = c.bitlen.toNat / 8 % 64 ∧ c.buf = msg.drop (64 * (msg.length / 64)) ∧
    ∀ (bytes : List Byte) (c' : HasherContext), c.update bytes = .ok c' → c'.Represents (msg ++ bytes)

/-- The number of blocks compressed for a message is `floor((len + 8) / 64) + 1`. -/
def Obligations.MessageBlockCount : Prop :=
  ∀ msg : List Byte, (paddedMessage msg).length = 64 * ((msg.length + 8) / 64 + 1)

/-- Incremental equivalence: a new context, any updates whose bytes concatenate to the message, and finalize give
`sha256` of the message, however it is split. -/
def Obligations.DigestDoesNotDependOnTheSplit : Prop :=
  ∀ chunks : List (List Byte), 8 * chunks.flatten.length < 2 ^ 64 →
    ∃ c c' d, HasherContext.new.updates chunks = .ok c ∧ c.finalize = .ok (c', d) ∧ sha256 chunks.flatten = .ok d

/-- The host layer driven over the engine's commands does what the context does, with the engine's `H` as the running
State: `update` and `finalize` from any engine state. -/
def Obligations.EngineRefinesTheHasher : Prop :=
  (∀ (c : HostContext) (bytes : List Byte) (s : State),
    match (c.withEngine s).update bytes with
    | .ok ctx' => ∃ c' s', driveUpdate c bytes s = .ok (c', s') ∧ c'.withEngine s' = ctx'
    | .error e => driveUpdate c bytes s = .error (.host e)) ∧
  ∀ (c : HostContext) (s : State),
    match (c.withEngine s).finalize with
    | .ok (ctx', d) => ∃ c' s', driveFinalize c s = .ok (c', s', d) ∧ c'.withEngine s' = ctx'
    | .error e      => driveFinalize c s = .error (.host e)

/-- From any engine state, reset, one update and finalize on the engine give `sha256` of the message. -/
def Obligations.EngineHashesEveryMessage : Prop :=
  ∀ (s : State) (msg : List Byte), 8 * msg.length < 2 ^ 64 →
    ∃ c1 s1 c2 s2 c3 s3 d, driveReset s = .ok (c1, s1) ∧ driveUpdate c1 msg s1 = .ok (c2, s2) ∧
      driveFinalize c2 s2 = .ok (c3, s3, d) ∧ sha256 msg = .ok d

/-- R184: contexts that share one engine. From ANY engine state, whatever another context left in it, `update` and
`finalize` bracketed by WRST and RDST do what the context does, errors included; and the digest is the one that the
same context gives on an engine of its own. -/
def Obligations.SharedEngineGivesTheSameDigests : Prop :=
  (∀ (ctx : HasherContext) (bytes : List Byte) (s : State),
    match ctx.update bytes with
    | .ok ctx' => ∃ s', sharedUpdate ctx bytes s = .ok (ctx', s')
    | .error e => sharedUpdate ctx bytes s = .error (.host e)) ∧
  (∀ (ctx : HasherContext) (s : State),
    match ctx.finalize with
    | .ok (ctx', d) => ∃ s', sharedFinalize ctx s = .ok (ctx', s', d)
    | .error e      => sharedFinalize ctx s = .error (.host e)) ∧
  ∀ (c c' : HostContext) (own own' other : State) (d : List Byte), driveFinalize c own = .ok (c', own', d) →
    ∃ s', sharedFinalize (c.withEngine own) other = .ok (c'.withEngine own', s', d)
end

