-- ==== Sys2Proof/Config.lean ====
section
/-! DEFINITION. Config.lean: what an implementation fixes. The spec leaves exactly two parameters open, the two
latencies of 70_reset_and_hazards.md R230 (92_eei_decisions.md D19). They have no body, so nothing can be proved
about their values; no step of the machine depends on them (log entry 9). Every size is fixed (00_scope.md R7, R8). -/

namespace Sys2Proof

/-- `T_CMD`: clock cycles from accepting a command other than COMPRESS to presenting its response (R230, open). -/
opaque Config.tCmd : ℕ+

/-- `T_COMPRESS`: the same for a successful COMPRESS (R230, open). It has no argument: the requirement of R230 is that
it does not depend on `H` or `B`. -/
opaque Config.tCompress : ℕ+

end Sys2Proof
end

