-- ==== Sys2Proof/Laws/Host.lean ====
section
/-! SUPPORT. Laws/Host.lean: how the host's sequences compose, and the two forms of a context. -/

namespace Sys2Proof.Machine

/-- A sequence issued in two parts. -/
theorem issue_append (a b : List Instr) (s : State) :
    issue (a ++ b) s = match issue a s with
      | .ok s'   => issue b s'
      | .error e => .error e := by
  induction a generalizing s with
  | nil => rfl
  | cons i is ih =>
    simp only [List.cons_append, issue]
    cases transact i s with
    | ok p => exact ih _
    | error f => rfl

/-- Eight words read in order are the vector they are the list of. -/
theorem State.lastState_of_lastRead {s : State} {v : Vector Word 8} (h : s.lastRead 8 = v.toList) :
    s.lastState = some v := by
  unfold State.lastState
  rw [dif_pos (by simp [h])]
  simp only [h, Option.some.injEq]
  rfl

/-- Everything a completed operation on the shared engine did. -/
theorem onSharedEngine_ok {α : Type} {v : Vector Word 8} {op : State → Except HostStop (α × State)} {s s1 s2 s3 : State}
    {a : α} {v' : Vector Word 8} (hr : restoreState v s = .ok s1) (ho : op s1 = .ok (a, s2))
    (hs : saveState s2 = .ok (v', s3)) : onSharedEngine v op s = .ok (a, v', s3) := by
  simp only [onSharedEngine, hr, ho, hs]

@[simp] theorem HostContext.withState_hostPart (c : HostContext) (v : Vector Word 8) : (c.withState v).hostPart = c := rfl
@[simp] theorem HostContext.withState_state (c : HostContext) (v : Vector Word 8) : (c.withState v).state = v := rfl
@[simp] theorem HasherContext.hostPart_withState (ctx : HasherContext) : ctx.hostPart.withState ctx.state = ctx := rfl

end Sys2Proof.Machine
end

