-- ==== Sys2Proof/Laws/State.lean ====
section
/-! SUPPORT. Laws/State.lean: one lemma per field per update of the state. -/

namespace Sys2Proof.Machine

@[simp] theorem State.readH_eq (s : State) (i : Fin 8) : s.readH i = s.h[i] := rfl

@[simp] theorem State.writeH_h (s : State) (i : Fin 8) (v : Word) : (s.writeH i v).h = s.h.set i v := rfl
@[simp] theorem State.writeH_b (s : State) (i : Fin 8) (v : Word) : (s.writeH i v).b = s.b := rfl
@[simp] theorem State.writeH_bv (s : State) (i : Fin 8) (v : Word) : (s.writeH i v).bv = s.bv := rfl
@[simp] theorem State.writeH_inputs (s : State) (i : Fin 8) (v : Word) : (s.writeH i v).inputs = s.inputs := rfl
@[simp] theorem State.writeH_responses (s : State) (i : Fin 8) (v : Word) :
    (s.writeH i v).responses = s.responses := rfl

@[simp] theorem State.loadH_h (s : State) (v : Vector Word 8) : (s.loadH v).h = v := rfl
@[simp] theorem State.loadH_b (s : State) (v : Vector Word 8) : (s.loadH v).b = s.b := rfl
@[simp] theorem State.loadH_bv (s : State) (v : Vector Word 8) : (s.loadH v).bv = s.bv := rfl
@[simp] theorem State.loadH_inputs (s : State) (v : Vector Word 8) : (s.loadH v).inputs = s.inputs := rfl
@[simp] theorem State.loadH_responses (s : State) (v : Vector Word 8) : (s.loadH v).responses = s.responses := rfl

@[simp] theorem State.writeB_h (s : State) (j : Fin 16) (v : Word) : (s.writeB j v).h = s.h := rfl
@[simp] theorem State.writeB_b (s : State) (j : Fin 16) (v : Word) : (s.writeB j v).b = s.b.set j (some v) := rfl
@[simp] theorem State.writeB_bv (s : State) (j : Fin 16) (v : Word) : (s.writeB j v).bv = setValid s.bv j := rfl
@[simp] theorem State.writeB_inputs (s : State) (j : Fin 16) (v : Word) : (s.writeB j v).inputs = s.inputs := rfl
@[simp] theorem State.writeB_responses (s : State) (j : Fin 16) (v : Word) :
    (s.writeB j v).responses = s.responses := rfl

@[simp] theorem State.consumeBlock_h (s : State) : s.consumeBlock.h = s.h := rfl
@[simp] theorem State.consumeBlock_b (s : State) : s.consumeBlock.b = Vector.replicate 16 none := rfl
@[simp] theorem State.consumeBlock_bv (s : State) : s.consumeBlock.bv = 0 := rfl
@[simp] theorem State.consumeBlock_inputs (s : State) : s.consumeBlock.inputs = s.inputs := rfl
@[simp] theorem State.consumeBlock_responses (s : State) : s.consumeBlock.responses = s.responses := rfl

@[simp] theorem State.answer_h (s : State) (st : Status) (v : Word) : (s.answer st v).h = s.h := rfl
@[simp] theorem State.answer_b (s : State) (st : Status) (v : Word) : (s.answer st v).b = s.b := rfl
@[simp] theorem State.answer_bv (s : State) (st : Status) (v : Word) : (s.answer st v).bv = s.bv := rfl
@[simp] theorem State.answer_inputs (s : State) (st : Status) (v : Word) : (s.answer st v).inputs = s.inputs := rfl
@[simp] theorem State.answer_responses (s : State) (st : Status) (v : Word) :
    (s.answer st v).responses = s.responses ++ [{ status := st, rdata := v }] := rfl

@[simp] theorem State.resetEvent_h (s : State) : s.resetEvent.h = iv := rfl
@[simp] theorem State.resetEvent_b (s : State) : s.resetEvent.b = Vector.replicate 16 none := rfl
@[simp] theorem State.resetEvent_bv (s : State) : s.resetEvent.bv = 0 := rfl
@[simp] theorem State.resetEvent_inputs (s : State) : s.resetEvent.inputs = s.inputs := rfl
@[simp] theorem State.resetEvent_responses (s : State) : s.resetEvent.responses = s.responses := rfl

@[simp] theorem State.present_h (s : State) (c : Command) : (s.present c).h = s.h := rfl
@[simp] theorem State.present_b (s : State) (c : Command) : (s.present c).b = s.b := rfl
@[simp] theorem State.present_bv (s : State) (c : Command) : (s.present c).bv = s.bv := rfl
@[simp] theorem State.present_inputs (s : State) (c : Command) :
    (s.present c).inputs = .command c :: s.inputs := rfl
@[simp] theorem State.present_responses (s : State) (c : Command) : (s.present c).responses = s.responses := rfl

/-- Taking back the command just presented gives the state before. -/
@[simp] theorem State.takeInput_present (s : State) (c : Command) :
    (s.present c).takeInput = some (.command c, s) := rfl

end Sys2Proof.Machine
end

