-- ==== Sys2Proof/Laws/Ops.lean ====
section
/-! SUPPORT. Laws/Ops.lean: one lemma per shared operation, saying everything it can do. -/

namespace Sys2Proof.Machine

theorem respond_eq (st : Status) (v : Word) (s : State) : respond st v s = .next (s.answer st v) := rfl

theorem raise_eq (st : Status) (s : State) : raise st s = .next (s.answer st 0) := rfl

theorem execIllegal_eq (s : State) : execIllegal s = .next (s.answer .illegalCommand 0) := rfl

theorem elementOf_of_lt {n : Nat} {idx : Index} (h : idx.toNat < n) : elementOf n idx = some ⟨idx.toNat, h⟩ := by
  simp [elementOf, h]

theorem elementOf_of_le {n : Nat} {idx : Index} (h : n ≤ idx.toNat) : elementOf n idx = none := by
  simp [elementOf, Nat.not_lt.mpr h]

/-- An index names an element exactly when it is that element's number. -/
theorem elementOf_eq_some {n : Nat} {idx : Index} {k : Fin n} : elementOf n idx = some k ↔ idx.toNat = k.val := by
  unfold elementOf
  split
  · simp [Fin.ext_iff]
  · have := k.isLt
    simp only [reduceCtorEq, false_iff]
    omega

/-- `setValid` sets its own bit and no other. -/
theorem setValid_getLsbD (bv : BitVec 16) (j k : Fin 16) :
    (setValid bv j).getLsbD k.val = (decide (k = j) || bv.getLsbD k.val) := by
  revert j k
  simp only [setValid, BitVec.getLsbD_or, BitVec.getLsbD_shiftLeft, BitVec.getLsbD_one]
  intro j k
  have hk := k.isLt
  rcases lt_trichotomy k.val j.val with h | h | h
  · have : k ≠ j := fun e => by omega
    simp [h, this]
  · have : k = j := Fin.ext h
    simp [this]
  · have : k ≠ j := fun e => by omega
    have : ¬ (k.val - j.val = 0) := by omega
    simp_all

theorem allValid_of_ne {bv : BitVec 16} (h : bv ≠ 0xffff) : allValid bv = false := beq_eq_false_iff_ne.mpr h

theorem allValid_iff (bv : BitVec 16) : allValid bv = true ↔ bv = 0xffff := by simp [allValid]

/-- Bit `k` of the status register is `BV[k]` below 16 and 0 above. -/
theorem statWord_getLsbD (bv : BitVec 16) (k : Nat) : (statWord bv).getLsbD k = bv.getLsbD k := by
  simp only [statWord, BitVec.getLsbD_setWidth]
  by_cases h : k < 32
  · simp [h]
  · simp [h, BitVec.getLsbD_of_ge bv k (by omega)]

/-- What taking an input answers. -/
theorem takeInput_eq_some {s s' : State} {inp : HostInput} :
    s.takeInput = some (inp, s') ↔ ∃ rest, s.inputs = inp :: rest ∧ s' = { s with inputs := rest } := by
  unfold State.takeInput
  split <;> rename_i h <;> simp [h]
  exact fun _ => eq_comm

theorem takeInput_eq_none {s : State} : s.takeInput = none ↔ s.inputs = [] := by
  unfold State.takeInput
  split <;> rename_i h <;> simp [h]

end Sys2Proof.Machine
end

