-- ==== Sys2Proof/Laws/PerInstr.lean ====
section
/-! SUPPORT. Laws/PerInstr.lean: statements made per instruction, as syntax. -/

namespace Sys2Proof.Laws.EncodingFields

/-- The fields of an instruction's command word are its opcode, zero and its index, and the commands that ignore
`wdata` are sent with 0 (30_encoding.md R64, R65, R72). -/
def Statement (i : Instr) : Prop :=
  opField (encode i).cmd = i.mnemonic.opcode ∧ zField (encode i).cmd = 0 ∧ idxField (encode i).cmd = i.index ∧
    (i.mnemonic.format ≠ .id → (encode i).wdata = 0)

/-- The fields of any word built from an opcode and an index. -/
theorem fields_of_append (op : BitVec 8) (idx : Index) :
    opField (op ++ (0 : BitVec 16) ++ idx) = op ∧ zField (op ++ (0 : BitVec 16) ++ idx) = 0 ∧
      idxField (op ++ (0 : BitVec 16) ++ idx) = idx := by
  refine ⟨?_, ?_, ?_⟩ <;> ext k hk <;>
    simp only [opField, zField, idxField, BitVec.getElem_extractLsb', BitVec.getLsbD_append, hk, if_true,
      Nat.zero_add, BitVec.getLsbD_eq_getElem]
  · have h1 : ¬ 24 + k < 8 := by omega
    have h2 : ¬ 24 + k - 8 < 16 := by omega
    have h3 : 24 + k - 8 - 16 = k := by omega
    simp [h1, h2, h3, BitVec.getLsbD_eq_getElem hk]
  · have h1 : ¬ 8 + k < 8 := by omega
    simp only [h1, if_false]
    simp [hk]

theorem of_data (i : Instr) (h : i.mnemonic.format ≠ .id → i.data = 0) : Statement i :=
  ⟨(fields_of_append _ _).1, (fields_of_append _ _).2.1, (fields_of_append _ _).2.2, h⟩

theorem ldiv : Statement .ldiv := of_data _ fun _ => rfl
theorem wrh (idx : Index) (data : Word) : Statement (.wrh idx data) := of_data _ fun h => absurd rfl h
theorem rdh (idx : Index) : Statement (.rdh idx) := of_data _ fun _ => rfl
theorem wrb (idx : Index) (data : Word) : Statement (.wrb idx data) := of_data _ fun h => absurd rfl h
theorem compress : Statement .compress := of_data _ fun _ => rfl
theorem stat : Statement .stat := of_data _ fun _ => rfl
theorem rdk (idx : Index) : Statement (.rdk idx) := of_data _ fun _ => rfl

end Sys2Proof.Laws.EncodingFields
end

