-- ==== Sys2Proof/Laws/Step.lean ====
section
/-! SUPPORT. Laws/Step.lean: what a step can do, and what an instruction's meaning can answer. -/

namespace Sys2Proof.Machine

/-- One input decides a step. -/
theorem step_of_inputs_nil {s : State} (h : s.inputs = []) : step s = .next s := by
  simp [step, takeInput_eq_none.mpr h]

theorem step_of_resetEvent {s : State} {rest : List HostInput} (h : s.inputs = .resetEvent :: rest) :
    step s = .next (State.resetEvent { s with inputs := rest }) := by
  simp [step, takeInput_eq_some.mpr ⟨rest, h, rfl⟩]

theorem step_of_illegal {s : State} {c : Command} {rest : List HostInput} {e : Illegal}
    (h : s.inputs = .command c :: rest) (hd : decode c = .error e) :
    step s = .next (State.answer { s with inputs := rest } .illegalCommand 0) := by
  simp [step, takeInput_eq_some.mpr ⟨rest, h, rfl⟩, hd, execIllegal_eq]

/-- What `exec` can answer: a fault inside COMPRESS, or a next state of one of eight shapes. -/
theorem exec_cases (i : Instr) (s : State) :
    (i = .ldiv ∧ exec i s = .next ((s.loadH iv).answer .ok 0)) ∨
    (∃ idx data k, i = .wrh idx data ∧ stateIndex idx = some k ∧
      exec i s = .next ((s.writeH k data).answer .ok 0)) ∨
    (∃ idx k, i = .rdh idx ∧ stateIndex idx = some k ∧ exec i s = .next (s.answer .ok s.h[k])) ∨
    (∃ idx data j, i = .wrb idx data ∧ blockIndex idx = some j ∧
      exec i s = .next ((s.writeB j data).answer .ok 0)) ∨
    (i = .compress ∧ s.bv = 0xffff ∧
      ((∃ s' x, runMicroOps referenceOrder s Transient.empty = .ok (s', x) ∧
        exec i s = .next (s'.consumeBlock.answer .ok 0)) ∨
       (∃ f, runMicroOps referenceOrder s Transient.empty = .error f ∧ exec i s = .fault f))) ∨
    (i = .compress ∧ s.bv ≠ 0xffff ∧ exec i s = .next (s.answer .invalidArgument 0)) ∨
    (i = .stat ∧ exec i s = .next (s.answer .ok (statWord s.bv))) ∨
    (∃ idx t, i = .rdk idx ∧ romIndex idx = some t ∧ exec i s = .next (s.answer .ok (roundConstant t))) ∨
    (¬ WellFormed i ∧ exec i s = .next (s.answer .illegalCommand 0)) := by
  cases i with
  | ldiv => exact .inl ⟨rfl, rfl⟩
  | wrh idx data =>
    by_cases h : idx.toNat < 8
    · exact .inr (.inl ⟨idx, data, ⟨_, h⟩, rfl, elementOf_of_lt h, by
        simp [exec, execWrh, stateIndex, elementOf_of_lt h, respond_eq]⟩)
    · have h' := Nat.not_lt.mp h
      refine .inr (.inr (.inr (.inr (.inr (.inr (.inr (.inr ⟨?_, ?_⟩)))))))
      · simp [Instr.wellFormed]; omega
      · simp [exec, execWrh, stateIndex, elementOf_of_le h', execIllegal_eq]
  | rdh idx =>
    by_cases h : idx.toNat < 8
    · exact .inr (.inr (.inl ⟨idx, ⟨_, h⟩, rfl, elementOf_of_lt h, by
        simp [exec, execRdh, stateIndex, elementOf_of_lt h, respond_eq]⟩))
    · have h' := Nat.not_lt.mp h
      refine .inr (.inr (.inr (.inr (.inr (.inr (.inr (.inr ⟨?_, ?_⟩)))))))
      · simp [Instr.wellFormed]; omega
      · simp [exec, execRdh, stateIndex, elementOf_of_le h', execIllegal_eq]
  | wrb idx data =>
    by_cases h : idx.toNat < 16
    · exact .inr (.inr (.inr (.inl ⟨idx, data, ⟨_, h⟩, rfl, elementOf_of_lt h, by
        simp [exec, execWrb, blockIndex, elementOf_of_lt h, respond_eq]⟩)))
    · have h' := Nat.not_lt.mp h
      refine .inr (.inr (.inr (.inr (.inr (.inr (.inr (.inr ⟨?_, ?_⟩)))))))
      · simp [Instr.wellFormed]; omega
      · simp [exec, execWrb, blockIndex, elementOf_of_le h', execIllegal_eq]
  | compress =>
    by_cases h : s.bv = 0xffff
    · refine .inr (.inr (.inr (.inr (.inl ⟨rfl, h, ?_⟩))))
      cases hr : runMicroOps referenceOrder s Transient.empty with
      | ok p => exact .inl ⟨p.1, p.2, rfl, by simp [exec, execCompress, allValid, h, hr, respond_eq]⟩
      | error f => exact .inr ⟨f, rfl, by simp [exec, execCompress, allValid, h, hr]⟩
    · exact .inr (.inr (.inr (.inr (.inr (.inl ⟨rfl, h, by
        simp [exec, execCompress, allValid_of_ne h, raise_eq]⟩)))))
  | stat => exact .inr (.inr (.inr (.inr (.inr (.inr (.inl ⟨rfl, rfl⟩))))))
  | rdk idx =>
    by_cases h : idx.toNat < 64
    · exact .inr (.inr (.inr (.inr (.inr (.inr (.inr (.inl ⟨idx, ⟨_, h⟩, rfl, elementOf_of_lt h, by
        simp [exec, execRdk, romIndex, elementOf_of_lt h, respond_eq]⟩)))))))
    · have h' := Nat.not_lt.mp h
      refine .inr (.inr (.inr (.inr (.inr (.inr (.inr (.inr ⟨?_, ?_⟩)))))))
      · simp [Instr.wellFormed]; omega
      · simp [exec, execRdk, romIndex, elementOf_of_le h', execIllegal_eq]

end Sys2Proof.Machine
end

