-- ==== Sys2Proof/Laws/Transient.lean ====
section
/-! SUPPORT. Laws/Transient.lean: what the operations on the transient state of COMPRESS do, field by field. -/

namespace Sys2Proof.Machine

@[simp] theorem Transient.writeBlock_wr (x : Transient) (v : Vector Word 16) : (x.writeBlock v).wr = x.wr := by
  simp only [Transient.writeBlock]

theorem Transient.writeBlock_w_lt (x : Transient) (v : Vector Word 16) (t : Nat) (h : t < 16) :
    (x.writeBlock v).w[t] = some v[t] := by
  simp [Transient.writeBlock, h]

theorem Transient.writeBlock_w_ge (x : Transient) (v : Vector Word 16) (t : Nat) (h : 16 ≤ t) (ht : t < 64) :
    (x.writeBlock v).w[t] = x.w[t] := by
  simp [Transient.writeBlock, Nat.not_lt.mpr h]

@[simp] theorem Transient.writeW_wr (x : Transient) (t : Fin 64) (v : Word) : (x.writeW t v).wr = x.wr := by
  simp only [Transient.writeW]

theorem Transient.writeW_w (x : Transient) (t : Fin 64) (v : Word) (u : Nat) (hu : u < 64) :
    (x.writeW t v).w[u] = if u = t.val then some v else x.w[u] := by
  simp [Transient.writeW, Vector.getElem_set, eq_comm]

/-- Reading a schedule word that holds a value gives that value. -/
theorem Transient.readW_of_some {x : Transient} {t : Nat} {v : Word} (ht : t < 64) (h : x.w[t] = some v) :
    x.readW t = .ok v := by
  simp [Transient.readW, Vector.getElem?_eq_getElem ht, h]

/-- Reading working registers that hold values gives them. -/
theorem Transient.readWorking_of_some {x : Transient} {r : Working} (h : x.wr = some r) : x.readWorking = .ok r := by
  simp [Transient.readWorking, h]

/-- A block whose sixteen words hold values. -/
theorem blockWords_of_some {b : Vector (Option Word) 16} {w : Vector Word 16} (h : ∀ j : Fin 16, b[j] = some w[j]) :
    blockWords b = .ok w := by
  unfold blockWords
  rw [dif_pos (by intro j; rw [h j]; rfl)]
  congr 1
  ext j hj
  have hj' := h ⟨j, hj⟩
  simp only [Fin.getElem_fin] at hj'
  simp [hj']

/-- What SLOAD does on a block whose words hold values. -/
theorem sloadOp_of_some {s : State} {w : Vector Word 16} (x : Transient) (h : ∀ j : Fin 16, s.b[j] = some w[j]) :
    sloadOp s x = .ok (x.writeBlock w) := by
  unfold sloadOp
  rw [blockWords_of_some h]

end Sys2Proof.Machine
end

