-- ==== Sys2Proof/Machine/Assembler.lean ====
section
/-! DEFINITION. Machine/Assembler.lean: the spec's notation for commands (30_encoding.md R72). The engine knows nothing
of it. -/

namespace Sys2Proof.Machine

/-- The eight hexadecimal digits of a word, most significant first (00_scope.md R9). -/
def hexWord (w : Word) : String :=
  String.ofList ((List.range 8).map fun k => Nat.digitChar ((w >>> (28 - 4 * k)).toNat % 16))

/-- `idx` as a decimal number. -/
def indexText (idx : Index) : String := String.ofList (Nat.toDigits 10 idx.toNat)

/-- `MNEMONIC`, `MNEMONIC idx` or `MNEMONIC idx, data`, by format (R72). -/
def assemblyText : Instr → String
  | .ldiv         => "LDIV"
  | .wrh idx data => "WRH " ++ indexText idx ++ ", 0x" ++ hexWord data
  | .rdh idx      => "RDH " ++ indexText idx
  | .wrb idx data => "WRB " ++ indexText idx ++ ", 0x" ++ hexWord data
  | .compress     => "COMPRESS"
  | .stat         => "STAT"
  | .rdk idx      => "RDK " ++ indexText idx

end Sys2Proof.Machine
end

