-- ==== Sys2Proof/Machine/Timing.lean ====
section
/-! DEFINITION. Machine/Timing.lean: the open latencies as a cost function beside the machine (70_reset_and_hazards.md
R230). No step reads it: a model has no time (log entry 9). -/

namespace Sys2Proof.Machine

/-- Clock cycles from accepting a legal command to presenting its response: `T_COMPRESS` for a successful COMPRESS,
`T_CMD` for a command other than COMPRESS. R230 names no latency for a COMPRESS that is refused. -/
def latency (i : Instr) (s : State) : Option ℕ+ :=
  match i with
  | .compress => if allValid s.bv then some Config.tCompress else none
  | .ldiv | .wrh _ _ | .rdh _ | .wrb _ _ | .stat | .rdk _ => some Config.tCmd

end Sys2Proof.Machine
end

