-- ==== Sys2Proof/Tests/Slice0.lean ====
section
/-! SUPPORT. Tests/Slice0.lean: the model's own tests, and for every obligation with hypotheses a witness that meets
them. Expected values are the spec's (95_test_vectors.md, and the sections each comment names), never the model's own
answers. -/

namespace Sys2Proof.Tests

open Sys2Proof.Machine

/-! ### Small states and helpers -/

/-- The padded block of the message "abc" (95_test_vectors.md section 3). -/
def abcBlock : Vector Word 16 := #v[0x61626380, 0, 0, 0, 0, 0, 0, 0, 0, 0, 0, 0, 0, 0, 0, 0x00000018]

/-- The engine after reset and sixteen WRB with the words of a block. -/
def loaded (w : Vector Word 16) : State := { State.reset with b := w.map some, bv := 0xffff }

/-- The engine of 95_test_vectors.md section 5.4 after its row 11: `BV = 0x8008`. -/
def twoWords : State :=
  { State.reset with
    h := #v[1, 0xbb67ae85, 0x3c6ef372, 0xa54ff53a, 0x510e527f, 0x9b05688c, 0x1f83d9ab, 0xffffffff],
    b := ((Vector.replicate 16 none).set 3 (some 0)).set 15 (some 0x00000018), bv := 0x8008 }

/-- A word function agrees with a table of arguments and values. -/
def agrees (f : Word → Word) (rows : List (Word × Word)) : Bool := rows.all fun r => f r.1 == r.2

/-- A property of the state an outcome gives; false where it gives none. -/
def thenHolds (o : Host.Outcome State Fault Refusal) (p : State → Bool) : Bool :=
  match o with
  | .next t    => p t
  | .fault _   => false
  | .refused _ => false

/-- One command word executed from a state answers this response. -/
def answers (s : State) (c wdata : Word) (st : Status) (rdata : Word) : Bool :=
  thenHolds (step (s.present ⟨c, wdata⟩)) fun t => t.responses == s.responses ++ [⟨st, rdata⟩]

/-- The command word is answered `(3, 0)` and the engine, the inputs and the earlier responses are as before. -/
def refusedAsIllegal (s : State) (c : Word) : Bool :=
  thenHolds (step (s.present ⟨c, 0x11111111⟩)) fun t =>
    t == { s with responses := s.responses ++ [⟨.illegalCommand, 0⟩] }

/-- The message of `n` bytes `0x61` (95_test_vectors.md section 6). -/
def manyA (n : Nat) : List Byte := List.replicate n 0x61

/-- The message "abc". -/
def abcBytes : List Byte := [0x61, 0x62, 0x63]

/-- `sha256` of a message is the digest with these words. -/
def hashesTo (msg : List Byte) (words : Vector Word 8) : Bool := sha256 msg == .ok (digestBytes words)

/-! ### WellFormed: an ill-formed term for each check (30_encoding.md R66) -/

theorem test_wellFormed_accepts_the_largest_indexes :
    WellFormed (.wrh 7 0xffffffff) ∧ WellFormed (.rdh 7) ∧ WellFormed (.wrb 15 0xffffffff) ∧ WellFormed (.rdk 63) ∧
      WellFormed .ldiv ∧ WellFormed .compress ∧ WellFormed .stat := by decide

theorem test_wellFormed_refuses_wrh_8 : ¬ WellFormed (.wrh 8 0) := by decide
theorem test_wellFormed_refuses_rdh_8 : ¬ WellFormed (.rdh 8) := by decide
theorem test_wellFormed_refuses_wrb_16 : ¬ WellFormed (.wrb 16 0) := by decide
theorem test_wellFormed_refuses_rdk_64 : ¬ WellFormed (.rdk 64) := by decide

/-! ### Decoding: words written field by field (30_encoding.md R64, R67): op, z, idx -/

theorem test_decode_ldiv : decode ⟨0b00000001#8 ++ 0b0000000000000000#16 ++ 0b00000000#8, 0x11111111⟩ = .ok .ldiv := by
  decide
theorem test_decode_wrh : decode ⟨0b00000010#8 ++ 0b0000000000000000#16 ++ 0b00000111#8, 0xffffffff⟩ =
    .ok (.wrh 7 0xffffffff) := by decide
theorem test_decode_rdh : decode ⟨0b00000011#8 ++ 0b0000000000000000#16 ++ 0b00000101#8, 0x11111111⟩ =
    .ok (.rdh 5) := by decide
theorem test_decode_wrb : decode ⟨0b00000100#8 ++ 0b0000000000000000#16 ++ 0b00001111#8, 0x00000018⟩ =
    .ok (.wrb 15 0x00000018) := by decide
theorem test_decode_compress : decode ⟨0b00000101#8 ++ 0b0000000000000000#16 ++ 0b00000000#8, 0x11111111⟩ =
    .ok .compress := by decide
theorem test_decode_stat : decode ⟨0b00000110#8 ++ 0b0000000000000000#16 ++ 0b00000000#8, 0x11111111⟩ = .ok .stat := by
  decide
theorem test_decode_rdk : decode ⟨0b00000111#8 ++ 0b0000000000000000#16 ++ 0b00111111#8, 0x11111111⟩ =
    .ok (.rdk 63) := by decide

/-- 95_test_vectors.md section 5.2, the illegal rows, in its order: each is answered `(3, 0)` and changes nothing. -/
theorem test_illegal_words_of_section_5_2 :
    [0x01000001, 0x01000100, 0x02000008, 0x020000ff, 0x03000008, 0x03800000, 0x04000010, 0x04010000, 0x05000001,
      0x05ffff00, 0x06000001, 0x07000040, 0x07000100, 0x00000000, 0x08000000, 0x10000000, 0x80000000, 0xff000000,
      0xffffffff, 0x00000005].all (refusedAsIllegal twoWords) = true := by decide +kernel

/-- The reasons the same table gives. -/
theorem test_reasons_of_section_5_2 :
    decode ⟨0x020000ff, 0⟩ = .error .indexOutOfRange ∧ decode ⟨0x03800000, 0⟩ = .error .reservedFieldNotZero ∧
      decode ⟨0x06000001, 0⟩ = .error .indexNotZero ∧ decode ⟨0x00000005, 0⟩ = .error .reservedOpcode := by decide

/-- 30_encoding.md R72's examples. -/
theorem test_assembly : assemblyText (.wrb 15 0x00000018) = "WRB 15, 0x00000018" ∧ assemblyText (.rdh 3) = "RDH 3" ∧
    assemblyText .compress = "COMPRESS" := by decide

/-- The table word of RDK 63, 32 bits and 64 bits wide, and the step that runs it after reset (section 5.3). -/
theorem test_decodeTableWord : decodeTableWord 32 0x0700003f = some (.rdk 63) ∧
    decodeTableWord 64 0x000000180400000f = some (.wrb 15 0x00000018) ∧ decodeTableWord 32 0x07000040 = none := by
  decide

theorem test_withFetchWord : thenHolds (step (State.reset.withFetchWord 32 0x0700003f))
    (fun t => t.responses == [⟨.ok, 0xc67178f2⟩] && t.inputs == []) = true := by decide +kernel

/-! ### Reset and the step (10_state.md R33, 70_reset_and_hazards.md R215) -/

theorem test_reset : State.reset.h[0] = 0x6a09e667 ∧ State.reset.h[7] = 0x5be0cd19 ∧ State.reset.bv = 0 ∧
    (∀ j : Fin 16, State.reset.b[j] = none) ∧ State.reset.inputs = [] ∧ State.reset.responses = [] := by decide

theorem test_reset_event_drops_a_half_written_block :
    thenHolds (step { twoWords with inputs := [.resetEvent] }) (fun t => t == State.reset) = true := by decide +kernel

theorem test_idle : thenHolds (step twoWords) (fun t => t == twoWords) = true := by decide

/-! ### The seven commands (95_test_vectors.md section 5.4) -/

theorem test_ldiv_restores_H_and_keeps_BV :
    thenHolds (exec .ldiv twoWords) (fun t => t.h == iv && t.bv == 0x8008 && t.b == twoWords.b) = true := by
  decide +kernel

theorem test_wrh_writes_one_word :
    thenHolds (exec (.wrh 7 0xffffffff) State.reset) (fun t => t.h[7] == 0xffffffff && t.h[6] == 0x1f83d9ab) = true := by
  decide +kernel

theorem test_rdh : answers twoWords 0x03000007 0 .ok 0xffffffff = true := by decide +kernel
theorem test_rdh_after_reset : answers State.reset 0x03000007 0x11111111 .ok 0x5be0cd19 = true := by decide +kernel

theorem test_wrb_sets_its_mask_bit :
    thenHolds (exec (.wrb 3 0xcafef00d) State.reset)
      (fun t => t.b[3] == some 0xcafef00d && t.bv == 0x0008 && t.b[2] == none) = true := by decide +kernel

theorem test_wrb_again_keeps_the_mask :
    thenHolds (exec (.wrb 3 0xcafef00d) twoWords) (fun t => t.b[3] == some 0xcafef00d && t.bv == 0x8008) = true := by
  decide +kernel

theorem test_compress_abc :
    thenHolds (exec .compress (loaded abcBlock)) (fun t =>
      t.h == #v[0xba7816bf, 0x8f01cfea, 0x414140de, 0x5dae2223, 0xb00361a3, 0x96177a9c, 0xb410ff61, 0xf20015ad] &&
      t.bv == 0 && t.b == Vector.replicate 16 none && t.responses == [⟨.ok, 0⟩]) = true := by decide +kernel

theorem test_compress_of_two_words_fails :
    thenHolds (exec .compress twoWords) (fun t => t == twoWords.answer .invalidArgument 0) = true := by decide +kernel

theorem test_stat : answers twoWords 0x06000000 0 .ok 0x00008008 = true := by decide +kernel
theorem test_stat_after_reset : answers State.reset 0x06000000 0x11111111 .ok 0 = true := by decide +kernel

theorem test_rdk_first_half : ([(0, 0x428a2f98), (1, 0x71374491), (2, 0xb5c0fbcf), (15, 0xc19bf174), (16, 0xe49b69c1),
    (31, 0x14292967)] : List (Word × Word)).all (fun r => answers twoWords (0x07000000 ||| r.1) 0 .ok r.2) = true := by
  decide +kernel
theorem test_rdk_second_half : ([(32, 0x27b70a85), (47, 0x106aa070), (48, 0x19a4c116), (62, 0xbef9a3f7),
    (63, 0xc67178f2)] : List (Word × Word)).all (fun r => answers twoWords (0x07000000 ||| r.1) 0 .ok r.2) = true := by
  decide +kernel

/-! ### Constants -/

theorem test_iv_checksums : iv.toList.foldl (· ^^^ ·) 0 = 0xc62760eb ∧ iv.toList.foldl (· + ·) 0 = 0x6ea8df67 := by
  decide

theorem test_rom_checksums :
    ((List.finRange 64).map roundConstant).foldl (· ^^^ ·) 0 = 0x95c49cf5 ∧
      ((List.finRange 64).map roundConstant).foldl (· + ·) 0 = 0x941d1755 ∧
      ((List.finRange 64).map fun t => (roundConstant t).toNat).Nodup := by decide +kernel

/-! ### Word functions (95_test_vectors.md section 2) -/

theorem test_rotr : rotr 0x00000001 1 = 0x80000000 ∧ rotr 0x00000001 31 = 0x00000002 ∧ rotr 0x80000000 31 = 1 ∧
    rotr 0x12345678 7 = 0xf02468ac ∧ rotr 0xdeadbeef 19 = 0xb7ddfbd5 := by decide

theorem test_shr : shr 0x00000001 1 = 0 ∧ shr 0x80000000 31 = 1 ∧ shr 0xffffffff 13 = 0x0007ffff ∧
    shr 0xdeadbeef 10 = 0x0037ab6f := by decide

theorem test_ssig0 : agrees ssig0 [(0x00000001, 0x02004000), (0x80000000, 0x11002000), (0xffffffff, 0x1fffffff),
    (0x12345678, 0xe7fce6ee), (0xdeadbeef, 0xabd31b0b), (0x0000ffff, 0xc1ffde00)] = true := by decide

theorem test_ssig1 : agrees ssig1 [(0x00000001, 0x0000a000), (0x80000000, 0x00205000), (0xffffffff, 0x003fffff),
    (0x12345678, 0xa1f78649), (0xdeadbeef, 0x689dbfec), (0x0000ffff, 0x6000603f)] = true := by decide

theorem test_bsig0 : agrees bsig0 [(0x00000001, 0x40080400), (0x80000000, 0x20040200), (0xffffffff, 0xffffffff),
    (0x12345678, 0x66146474), (0xdeadbeef, 0xb62e25ac), (0x0000ffff, 0x3c07c3f8)] = true := by decide

theorem test_bsig1 : agrees bsig1 [(0x00000001, 0x04200080), (0x80000000, 0x02100040), (0xffffffff, 0xffffffff),
    (0x12345678, 0x3561abda), (0xdeadbeef, 0x345e14a3), (0x0000ffff, 0x039ffc60)] = true := by decide

theorem test_ch_maj : ch 0xf0f0f0f0 0xaaaaaaaa 0x55555555 = 0xa5a5a5a5 ∧ ch 0x510e527f 0x9b05688c 0x1f83d9ab = 0x1f85c98c ∧
    maj 0x0f0f0f0f 0xaaaaaaaa 0x55555555 = 0x0f0f0f0f ∧ maj 0x6a09e667 0xbb67ae85 0x3c6ef372 = 0x3a6fe667 := by decide

/-- Section 2.5: carries out of bit 31 are dropped. -/
theorem test_sums : temp1 ⟨0, 0, 0, 0, 0x510e527f, 0x9b05688c, 0x1f83d9ab, 0x5be0cd19⟩ 0x428a2f98 0x61626380 = 0x54da50e8 ∧
    (0xffffffff + 0xffffffff + 0xffffffff + 0xffffffff + 0xffffffff : Word) = 0xfffffffb := by decide

/-! ### Micro-operations (95_test_vectors.md sections 3 and 5.6) -/

theorem test_sload_copies_without_byte_swap :
    (match sloadOp (loaded (abcBlock.set 3 0xcafef00d)) Transient.empty with
      | .ok x    => x.w[3] == some 0xcafef00d && x.w[0] == some 0x61626380 && x.w[16] == none
      | .error _ => false) = true := by decide +kernel

theorem test_sexp_16 :
    (match sexpOp 16 (Transient.empty.writeBlock abcBlock) with
      | .ok x    => x.w[16] == some 0x61626380 && x.w[17] == none
      | .error _ => false) = true := by decide +kernel

/-- Words 17, 18, 30, 32, 63 of the "abc" schedule. -/
theorem test_sched_abc : (sched abcBlock)[17] = 0x000f0000 ∧ (sched abcBlock)[18] = 0x7da86405 ∧
    (sched abcBlock)[30] = 0x702138a4 ∧ (sched abcBlock)[32] = 0x93f5997f ∧ (sched abcBlock)[63] = 0x12b1edeb := by
  decide +kernel

theorem test_winit : (winitOp { State.reset with h := #v[1, 2, 3, 4, 5, 6, 7, 8] } Transient.empty).wr =
    some ⟨1, 2, 3, 4, 5, 6, 7, 8⟩ := by decide

/-- The fourth, the third and the sixth ROUND vector. -/
theorem test_round : roundStep ⟨1, 2, 3, 4, 5, 6, 7, 8⟩ 0x428a2f98 0x01020304 =
      ⟨0x9834392d, 1, 2, 3, 0x582c352e, 5, 6, 7⟩ ∧
    temp1 (Working.ofVector (Vector.replicate 8 0xffffffff)) 0xffffffff 0xffffffff = 0xfffffffb ∧
    (roundStep (Working.ofVector (Vector.replicate 8 0x80000000)) 0x80000000 0x80000000).e = 0x82100040 := by decide

/-- Row 0 of section 3's trace, through the micro-operation and so through the ROM. -/
theorem test_round_0_of_abc :
    (match roundOp 0 (winitOp State.reset (Transient.empty.writeBlock abcBlock)) with
      | .ok x    => x.wr == some ⟨0x5d6aebcd, 0x6a09e667, 0xbb67ae85, 0x3c6ef372, 0xfa2a4622, 0x510e527f, 0x9b05688c,
          0x1f83d9ab⟩
      | .error _ => false) = true := by decide +kernel

theorem test_fold_wraps_word_by_word :
    foldWords (Vector.replicate 8 0xffffffff) #v[1, 2, 3, 4, 5, 6, 7, 8] = #v[0, 1, 2, 3, 4, 5, 6, 7] := by decide

/-- 44_command_sequencer.md R152: 1 + 48 + 1 + 64 + 1 micro-operations, and the ROM is read in order (R82). -/
theorem test_reference_order : referenceOrder.length = 115 ∧ referenceOrder.head? = some .sload ∧
    referenceOrder[1]? = some (.sexp 16) ∧ referenceOrder[48]? = some (.sexp 63) ∧ referenceOrder[49]? = some .winit ∧
    referenceOrder[50]? = some (.round 0) ∧ referenceOrder[113]? = some (.round 63) ∧
    referenceOrder.getLast? = some .fold := by decide +kernel

/-- Two more rows of section 5.5, the fifth and the ninth. -/
theorem test_compressFn :
    compressFn (Vector.replicate 8 0xffffffff) (Vector.replicate 16 0xffffffff) =
      #v[0x0598127a, 0xaf11706e, 0x77401fff, 0xd730c549, 0x0b84c867, 0xa98c6ca3, 0xd7f3c0f9, 0x06a78b79] ∧
    compressFn #v[1, 2, 3, 4, 5, 6, 7, 8] (Vector.ofFn fun j : Fin 16 => BitVec.ofNat 32 j.val * 0x01010101) =
      #v[0x259e7279, 0x12cd24a8, 0xe5b84dec, 0x9fe36f97, 0xba6220f1, 0x2d265949, 0xc5018634, 0xf4d3b25b] := by
  decide +kernel

/-- 70_reset_and_hazards.md R230: the named latencies. -/
theorem test_latency : latency .stat twoWords = some Config.tCmd ∧
    latency .compress (loaded abcBlock) = some Config.tCompress ∧ latency .compress twoWords = none := by
  refine ⟨rfl, rfl, rfl⟩

/-! ### Host layer (95_test_vectors.md sections 6 and 8) -/

/-- Section 6.1: `r`, `L`, number of zero bytes. -/
theorem test_padZeros : [0, 1, 3, 55, 56, 57, 63, 47, 48].map padZeros = [55, 54, 52, 0, 63, 62, 56, 8, 7] := by decide

theorem test_be64 : be64 0x3c8 = [0, 0, 0, 0, 0, 0, 0x03, 0xc8] ∧
    be64 0xfffffffffffffff8 = [0xff, 0xff, 0xff, 0xff, 0xff, 0xff, 0xff, 0xf8] := by decide

theorem test_sha256_abc : hashesTo abcBytes
    #v[0xba7816bf, 0x8f01cfea, 0x414140de, 0x5dae2223, 0xb00361a3, 0x96177a9c, 0xb410ff61, 0xf20015ad] = true := by
  decide +kernel

/-- The computed digest, not the source's misprint (90_conflicts.md C1). -/
theorem test_sha256_empty : hashesTo []
    #v[0xe3b0c442, 0x98fc1c14, 0x9afbf4c8, 0x996fb924, 0x27ae41e4, 0x649b934c, 0xa495991b, 0x7852b855] = true := by
  decide +kernel

theorem test_sha256_55_56 : hashesTo (manyA 55)
      #v[0x9f4390f8, 0xd30c2dd9, 0x2ec9f095, 0xb65e2b9a, 0xe9b0a925, 0xa5258e24, 0x1c9f1e91, 0x0f734318] = true ∧
    hashesTo (manyA 56)
      #v[0xb35439a4, 0xac6f0948, 0xb6d6f9e3, 0xc6af0f5f, 0x590ce20f, 0x1bde7090, 0xef797068, 0x6ec6738a] = true := by
  decide +kernel

theorem test_sha256_64_120 : hashesTo (manyA 64)
      #v[0xffe054fe, 0x7ae0cb6d, 0xc65c3af9, 0xb61d5209, 0xf439851d, 0xb43d0ba5, 0x997337df, 0x154668eb] = true ∧
    hashesTo (manyA 120)
      #v[0x2f3d3354, 0x32c70b58, 0x0af0e8e1, 0xb3674a7c, 0x020d683a, 0xa5f73aaa, 0xedfdc55a, 0xf904c21c] = true := by
  decide +kernel

/-- Trace T1, rows 1 to 6: the failing calls. -/
theorem test_finalize_twice_fails :
    (match HasherContext.new.update [0x61] with
      | .ok c => match c.update [0x62, 0x63] with
        | .ok c => c.phase == .absorbing && c.bitlen == 24 && match c.finalize with
          | .ok (c, _) => c.phase == .finalized && c.buf == [] && c.bitlen == 24 && c.finalize == .error .invalidState &&
              c.update [0x78] == .error .invalidState
          | .error _ => false
        | .error _ => false
      | .error _ => false) = true := by decide +kernel

/-- Trace T3: 100 + 20 bytes, on the engine, from a state with a half-written block. -/
theorem test_engine_hashes_120_bytes :
    (match driveReset twoWords with
      | .ok (c, s) => match driveUpdate c (manyA 100) s with
        | .ok (c, s) => c.buf.length == 36 && c.bitlen == 800 && match driveUpdate c (manyA 20) s with
          | .ok (c, s) => match driveFinalize c s with
            | .ok (_, _, d) => d == digestBytes #v[0x2f3d3354, 0x32c70b58, 0x0af0e8e1, 0xb3674a7c, 0x020d683a,
                0xa5f73aaa, 0xedfdc55a, 0xf904c21c]
            | .error _ => false
          | .error _ => false
        | .error _ => false
      | .error _ => false) = true := by decide +kernel

/-- Two contexts on one engine, as in program P5: X absorbs 64 bytes, then Y hashes "abc", then X finishes. -/
theorem test_two_contexts_share_the_engine :
    (match sharedUpdate HasherContext.new (manyA 64) State.reset with
      | .ok (x, s) => match sharedUpdate HasherContext.new abcBytes s with
        | .ok (y, s) => match sharedFinalize y s with
          | .ok (_, s, dy) => match sharedFinalize x s with
            | .ok (_, _, dx) =>
              dy == digestBytes #v[0xba7816bf, 0x8f01cfea, 0x414140de, 0x5dae2223, 0xb00361a3, 0x96177a9c, 0xb410ff61,
                0xf20015ad] &&
              dx == digestBytes #v[0xffe054fe, 0x7ae0cb6d, 0xc65c3af9, 0xb61d5209, 0xf439851d, 0xb43d0ba5, 0x997337df,
                0x154668eb]
            | .error _ => false
          | .error _ => false
        | .error _ => false
      | .error _ => false) = true := by decide +kernel

/-! ### Witnesses: for every obligation with hypotheses, states and operands that meet them, clause by clause -/

/-- What `thenHolds` says, as a proposition. -/
theorem exists_of_thenHolds {o : Host.Outcome State Fault Refusal} {p : State → Bool} (h : thenHolds o p = true) :
    ∃ t, o = .next t ∧ p t = true := by
  cases o with
  | next t    => exact ⟨t, rfl, h⟩
  | fault _   => cases h
  | refused _ => cases h

/-- A state whose next input is a command word. -/
def facing (s : State) (c : Word) : State := s.present ⟨c, 0x11111111⟩

theorem witness_LdivLoadsTheInitialValues : opField 0x01000001 = 0x01 ∧ (0x01000001 : Word) ≠ 0x01000000 ∧
    opField 0x01000100 = 0x01 ∧ (0x01000100 : Word) ≠ 0x01000000 := by decide

theorem witness_WrhWritesOneStateWord : (7 : Index).toNat ≤ 7 ∧ 7 < (8 : Index).toNat ∧ 7 < (255 : Index).toNat := by
  decide

theorem witness_RdhReadsOneStateWord : (7 : Index).toNat < 8 ∧ (7 : Index).toNat ≤ 7 ∧ 7 < (8 : Index).toNat := by decide

theorem witness_WrbWritesOneBlockWordAndItsMaskBit : (15 : Index).toNat ≤ 15 ∧ 15 < (16 : Index).toNat := by decide

theorem witness_CompressRefinesTheCompressionFunction :
    (opField 0x05000001 = 0x05 ∧ (0x05000001 : Word) ≠ 0x05000000) ∧ twoWords.bv ≠ 0xffff ∧
      (loaded abcBlock).bv = 0xffff ∧ ∀ j : Fin 16, (loaded abcBlock).b[j] = some abcBlock[j] := by decide +kernel

theorem witness_StatReadsTheMask : opField 0x06000001 = 0x06 ∧ (0x06000001 : Word) ≠ 0x06000000 ∧
    opField 0x06010000 = 0x06 ∧ (0x06010000 : Word) ≠ 0x06000000 := by decide

theorem witness_RdkReadsTheRom : (63 : Index).toNat < 64 ∧ (63 : Index).toNat ≤ 63 ∧ 63 < (64 : Index).toNat := by decide

theorem witness_IllFormedInstructionsAreAnsweredAsIllegal : ¬ WellFormed (.wrh 8 0) ∧ ¬ WellFormed (.rdh 255) ∧
    ¬ WellFormed (.wrb 16 0) ∧ ¬ WellFormed (.rdk 64) := by decide

theorem witness_DecodeOfEncode : WellFormed (.wrh 7 0xffffffff) ∧ WellFormed (.wrb 15 1) ∧ WellFormed (.rdk 63) := by decide

theorem witness_EncodeOfDecode : decode ⟨0x0400000f, 0x00000018⟩ = .ok (.wrb 15 0x00000018) ∧
    (Instr.wrb 15 0x00000018).mnemonic.format = .id ∧ decode ⟨0x05000000, 0x11111111⟩ = .ok .compress := by decide

theorem witness_OpcodeRowsAreDisjointAndEncode99Words : (0x02000007 : Word) &&& Mnemonic.wrh.mask = Mnemonic.wrh.matchBits := by
  decide

/-- One word for each of the six clauses: 0x00, 0x08 to 0xff, `z`, `idx` in format N, and the three index ranges. -/
theorem witness_IllegalWordsAreExactlyThese :
    decode ⟨0x00000000, 0⟩ = .error .reservedOpcode ∧ decode ⟨0x08000000, 0⟩ = .error .reservedOpcode ∧
    decode ⟨0x03000100, 0⟩ = .error .reservedFieldNotZero ∧ decode ⟨0x05000001, 0⟩ = .error .indexNotZero ∧
    decode ⟨0x03000008, 0⟩ = .error .indexOutOfRange ∧ decode ⟨0x04000010, 0⟩ = .error .indexOutOfRange ∧
    decode ⟨0x07000040, 0⟩ = .error .indexOutOfRange := by decide

/-- A word of format N, one of format I and an illegal one. -/
theorem witness_WdataIsIgnoredOutsideFormatId :
    decodeWord 0x05000000 = .ok (.compress, 0) ∧ Mnemonic.compress.format ≠ .id ∧
    decodeWord 0x03000007 = .ok (.rdh, 7) ∧ Mnemonic.rdh.format ≠ .id ∧
    decodeWord 0x02000008 = .error .indexOutOfRange := by decide

theorem witness_StepRunsTheDecodedInstruction :
    (facing twoWords 0x0700003f).inputs = .command ⟨0x0700003f, 0x11111111⟩ :: [] ∧
      decode ⟨0x0700003f, 0x11111111⟩ = .ok (.rdk 63) ∧ WellFormed (.rdk 63) := by decide

theorem witness_ResetEventGivesTheResetState : ({ twoWords with inputs := [.resetEvent] } : State).inputs = .resetEvent :: [] :=
  rfl

theorem witness_ResetEventGivesNoResponse :
    ({ twoWords with inputs := [.resetEvent, .command ⟨0x06000000, 0⟩] } : State).inputs =
      .resetEvent :: [.command ⟨0x06000000, 0⟩] := rfl

theorem witness_IdleEngineHoldsItsState : twoWords.inputs = [] := rfl

/-- Two coherent states with a block word written, and the steps of WRB and of a successful COMPRESS from them. -/
theorem witness_StepKeepsTheBlockCoherent : twoWords.Coherent ∧ (∃ t, step (facing twoWords 0x04000005) = .next t) ∧
    (loaded abcBlock).Coherent ∧ (∃ t, step (facing (loaded abcBlock) 0x05000000) = .next t) := by
  refine ⟨by decide, ⟨_, rfl⟩, by decide +kernel, ?_⟩
  obtain ⟨t, h, -⟩ := exists_of_thenHolds (o := step (facing (loaded abcBlock) 0x05000000)) (p := fun _ => true)
    (by decide +kernel)
  exact ⟨t, h⟩

theorem witness_CoherentStatesAlwaysStep : (facing (loaded abcBlock) 0x05000000).Coherent ∧ twoWords.Coherent := by
  decide +kernel

theorem witness_StepKeepsTheResponsesLegal : (twoWords.answer .invalidArgument 0).ResponsesLegal ∧
    ∃ t, step (facing (twoWords.answer .invalidArgument 0) 0x05000000) = .next t := ⟨by decide, _, rfl⟩

/-- A command for each of the three statuses. -/
theorem witness_EachStatusHasItsCause :
    (facing twoWords 0x06000000).NextCommand ⟨0x06000000, 0x11111111⟩ ∧
    (∃ t, step (facing twoWords 0x06000000) = .next t ∧ t.responses = [⟨.ok, 0x8008⟩]) ∧
    (facing twoWords 0x05000000).NextCommand ⟨0x05000000, 0x11111111⟩ ∧
    (∃ t, step (facing twoWords 0x05000000) = .next t ∧ t.responses = [⟨.invalidArgument, 0⟩]) ∧
    (facing twoWords 0x05000001).NextCommand ⟨0x05000001, 0x11111111⟩ ∧
    ∃ t, step (facing twoWords 0x05000001) = .next t ∧ t.responses = [⟨.illegalCommand, 0⟩] :=
  ⟨by decide, ⟨_, rfl, by decide⟩, by decide, ⟨_, rfl, by decide⟩, by decide, ⟨_, rfl, by decide⟩⟩

theorem witness_ErrorsLeaveNoTrace : (facing twoWords 0x05000000).NextCommand ⟨0x05000000, 0x11111111⟩ ∧
    Status.invalidArgument ≠ .ok ∧
    (∃ t, step (facing twoWords 0x05000000) = .next t ∧
      t.responses = (facing twoWords 0x05000000).responses ++ [⟨.invalidArgument, 0⟩]) ∧
    (facing twoWords 0xffffffff).NextCommand ⟨0xffffffff, 0x11111111⟩ ∧ Status.illegalCommand ≠ .ok ∧
    ∃ t, step (facing twoWords 0xffffffff) = .next t ∧
      t.responses = (facing twoWords 0xffffffff).responses ++ [⟨.illegalCommand, 0⟩] :=
  ⟨by decide, by decide, ⟨_, rfl, by decide⟩, by decide, by decide, ⟨_, rfl, by decide⟩⟩

/-- Each of the four: the reset event, LDIV, WRH, COMPRESS. -/
theorem witness_OnlyFourThingsChangeH :
    (∃ t, step { twoWords with inputs := [.resetEvent] } = .next t ∧ t.h ≠ twoWords.h) ∧
    (∃ t, step (facing twoWords 0x01000000) = .next t ∧ t.h ≠ twoWords.h) ∧
    (∃ t, step (facing twoWords 0x02000003) = .next t ∧ t.h ≠ twoWords.h) ∧
    ∃ t, step (facing (loaded abcBlock) 0x05000000) = .next t ∧ t.h ≠ (loaded abcBlock).h := by
  refine ⟨⟨_, rfl, by decide⟩, ⟨_, rfl, by decide⟩, ⟨_, rfl, by decide⟩, ?_⟩
  obtain ⟨t, h, hp⟩ := exists_of_thenHolds (o := step (facing (loaded abcBlock) 0x05000000))
    (p := fun t => t.h != (loaded abcBlock).h) (by decide +kernel)
  exact ⟨t, h, by simpa using hp⟩

/-- The three ways `BV` changes, and a command that does not change it. -/
theorem witness_MaskChangesOnlyByWrbCompressAndReset :
    (∃ t, step (facing twoWords 0x04000000) = .next t ∧ t.bv = 0x8009) ∧
    (∃ t, step { twoWords with inputs := [.resetEvent] } = .next t ∧ t.bv = 0) ∧
    (∃ t, step (facing (loaded abcBlock) 0x05000000) = .next t ∧ t.bv = 0) ∧
    ∃ t, step (facing twoWords 0x01000000) = .next t ∧ t.bv = twoWords.bv := by
  refine ⟨⟨_, rfl, by decide⟩, ⟨_, rfl, by decide⟩, ?_, ⟨_, rfl, by decide⟩⟩
  obtain ⟨t, h, hp⟩ := exists_of_thenHolds (o := step (facing (loaded abcBlock) 0x05000000))
    (p := fun t => t.bv == 0) (by decide +kernel)
  exact ⟨t, h, by simpa using hp⟩

/-- Commands of every kind, an illegal word and a reset event among the inputs. -/
theorem witness_EveryCommandIsAnsweredOnce :
    State.Coherent { loaded abcBlock with
      inputs := [.command ⟨0x05000000, 0⟩, .command ⟨0, 0⟩, .resetEvent, .command ⟨0x04000003, 1⟩] } := by decide +kernel

theorem witness_ReadsAndWritesAreIdempotentAndCompressIsNot :
    (∃ t, Instr.mnemonic (.rdh 7) = .rdh ∧ exec (.rdh 7) twoWords = .next t) ∧
    (∃ t, Instr.mnemonic (.rdk 63) = .rdk ∧ exec (.rdk 63) twoWords = .next t) ∧
    (∃ t, Instr.mnemonic .stat = .stat ∧ exec .stat twoWords = .next t) ∧
    (∃ t u, Instr.mnemonic (.wrh 7 1) = .wrh ∧ exec (.wrh 7 1) twoWords = .next t ∧ exec (.wrh 7 1) t = .next u) ∧
    (∃ t u, Instr.mnemonic (.wrb 15 1) = .wrb ∧ exec (.wrb 15 1) twoWords = .next t ∧ exec (.wrb 15 1) t = .next u) ∧
    (∃ t u, Instr.mnemonic .ldiv = .ldiv ∧ exec .ldiv twoWords = .next t ∧ exec .ldiv t = .next u) ∧
    (loaded abcBlock).bv = 0xffff ∧ ∃ t, exec .compress (loaded abcBlock) = .next t := by
  refine ⟨⟨_, rfl, rfl⟩, ⟨_, rfl, rfl⟩, ⟨_, rfl, rfl⟩, ⟨_, _, rfl, rfl, rfl⟩, ⟨_, _, rfl, rfl, rfl⟩,
    ⟨_, _, rfl, rfl, rfl⟩, rfl, ?_⟩
  obtain ⟨t, h, -⟩ := exists_of_thenHolds (o := exec .compress (loaded abcBlock)) (p := fun _ => true) (by decide +kernel)
  exact ⟨t, h⟩

theorem witness_RotrPermutesTheBits : (0 < 1 ∧ 1 < 32) ∧ (0 < 31 ∧ 31 < 32) ∧ 0 < 32 ∧ 31 < 32 := by decide

theorem witness_ShrIsFloorDivision : (0 < 1 ∧ 1 < 32) ∧ (0 < 31 ∧ 31 < 32) ∧ 0 < 32 ∧ 31 < 32 := by decide

/-- The bits on both sides of the two shift boundaries, and the values there: the shift term is there at 28 and 21 and
gone at 29 and 22. -/
theorem witness_SmallSigmaBits : (28 < 32 ∧ 29 < 32 ∧ 21 < 32 ∧ 22 < 32 ∧ 31 < 32) ∧
    (ssig0 0x80000000).getLsbD 28 = true ∧ (ssig0 0xffffffff).getLsbD 29 = false ∧
    (ssig1 0x80000000).getLsbD 21 = true ∧ (ssig1 0xffffffff).getLsbD 22 = false := by decide

theorem witness_BigSigmaBits : 0 < 32 ∧ 31 < 32 := by decide

theorem witness_ChooseSelectsAndMajorityCounts : 0 < 32 ∧ 31 < 32 := by decide

theorem witness_SloadCopiesTheBlock : ∀ j : Fin 16, (loaded abcBlock).b[j] = some abcBlock[j] := by decide +kernel

/-- The transient state whose schedule words all hold values, those of the "abc" block. -/
def fullSchedule : Transient := { w := (sched abcBlock).map some, wr := some ⟨1, 2, 3, 4, 5, 6, 7, 8⟩ }

/-- Rows 16 and 63 of the SEXP table of section 5.6: the least and the greatest index. -/
theorem witness_SexpComputesTheRecurrence :
    (16 ≤ (16 : Fin 64).val ∧ fullSchedule.w[16 - 16] = some 0x61626380 ∧ fullSchedule.w[16 - 15] = some 0 ∧
      fullSchedule.w[16 - 7] = some 0 ∧ fullSchedule.w[16 - 2] = some 0) ∧
    (16 ≤ (63 : Fin 64).val ∧ fullSchedule.w[63 - 16] = some 0x065c43da ∧ fullSchedule.w[63 - 15] = some 0xfb3e89cb ∧
      fullSchedule.w[63 - 7] = some 0xef57b9cd ∧ fullSchedule.w[63 - 2] = some 0x668b2ff8) := by decide +kernel

theorem witness_SchedIsWhatTheScheduleMicroOpsCompute : (15 : Fin 64).val < 16 ∧ 16 ≤ (16 : Fin 64).val ∧
    16 ≤ (63 : Fin 64).val ∧ ∀ j : Fin 16, (loaded abcBlock).b[j] = some abcBlock[j] := by decide +kernel

/-- The working registers after `n` rounds of the "abc" block from the reset state. -/
def abcRounds : Nat → Working
  | 0 => Working.ofVector iv
  | n + 1 => if h : n < 64 then roundStep (abcRounds n) (roundConstant ⟨n, h⟩) (sched abcBlock)[n] else abcRounds n

theorem witness_RoundsIsWhatTheRoundMicroOpsCompute :
    (∀ t : Fin 64, fullSchedule.w[t] = some (sched abcBlock)[t]) ∧
    abcRounds 0 = ⟨State.reset.h[0], State.reset.h[1], State.reset.h[2], State.reset.h[3], State.reset.h[4],
      State.reset.h[5], State.reset.h[6], State.reset.h[7]⟩ ∧
    ∀ t : Fin 64, ∃ t1 t2 : Word,
      t1 = (abcRounds t).h + bsig1 (abcRounds t).e + ch (abcRounds t).e (abcRounds t).f (abcRounds t).g +
        roundConstant t + (sched abcBlock)[t] ∧
      t2 = bsig0 (abcRounds t).a + maj (abcRounds t).a (abcRounds t).b (abcRounds t).c ∧
      abcRounds (t + 1) = ⟨t1 + t2, (abcRounds t).a, (abcRounds t).b, (abcRounds t).c, (abcRounds t).d + t1,
        (abcRounds t).e, (abcRounds t).f, (abcRounds t).g⟩ := by
  refine ⟨by simp [fullSchedule], rfl, fun t => ⟨_, _, rfl, rfl, ?_⟩⟩
  simp only [abcRounds, t.isLt, dif_pos, roundStep, temp1, temp2]
  rfl

theorem witness_FoldIsTheOnlyMicroOpThatWritesState : fullSchedule.wr = some ⟨1, 2, 3, 4, 5, 6, 7, 8⟩ ∧
    MicroOp.winit ≠ .fold ∧ ∃ s' x', MicroOp.winit.run twoWords fullSchedule = .ok (s', x') := ⟨rfl, by decide, _, _, rfl⟩

theorem witness_BlockWritesCommute : ∃ t1 t2 u1 u2, (0 : Index) ≠ 15 ∧
    exec (.wrb 0 1) twoWords = .next t1 ∧ exec (.wrb 15 2) t1 = .next t2 ∧
    exec (.wrb 15 2) twoWords = .next u1 ∧ exec (.wrb 0 1) u1 = .next u2 :=
  ⟨_, _, _, _, by decide, rfl, rfl, rfl, rfl⟩

theorem witness_PaddingCompletesTheBlock : 0 ≤ 63 ∧ (55 ≤ 63 ∧ 55 ≤ 55) ∧ (56 ≤ 63 ∧ ¬ 56 ≤ 55) ∧ 63 ≤ 63 ∧
    (63 + 1 + 56) % 64 = 56 := by decide

/-- A context in each of the three phases, and an update that ends at the greatest length allowed. -/
theorem witness_LifecycleFollowsTheTable :
    HasherContext.new.phase ≠ .finalized ∧ HasherContext.new.bitlen.toNat + 8 * abcBytes.length < 2 ^ 64 ∧
    (HasherContext.phase { HasherContext.new with phase := .absorbing, bitlen := 0xfffffffffffffff0 } ≠ .finalized ∧
      (0xfffffffffffffff0 : BitVec 64).toNat + 8 * ([0x61] : List Byte).length < 2 ^ 64) ∧
    HasherContext.phase { HasherContext.new with phase := .finalized } = .finalized := by decide

theorem witness_CounterNeverWraps :
    (HasherContext.phase { HasherContext.new with bitlen := 0xfffffffffffffff8 } ≠ .finalized ∧
      2 ^ 64 ≤ (0xfffffffffffffff8 : BitVec 64).toNat + 8 * ([0x61] : List Byte).length) ∧
    ∃ c', HasherContext.update { HasherContext.new with bitlen := 0xfffffffffffffff0 } [0x61] = .ok c' :=
  ⟨by decide, _, rfl⟩

/-- The context after 65 bytes: one block compressed and one byte buffered (95_test_vectors.md section 6.4). -/
def after65 : HasherContext where
  state := #v[0xdf5bb81c, 0xe81e0626, 0xfb45a894, 0x4fd40f31, 0xb25e6816, 0xd6d499c1, 0xab904929, 0x00635e66]
  buf := [0x61]
  bitlen := 520
  phase := .absorbing

theorem witness_ContextRepresentsTheBytesAbsorbed : HasherContext.new.Represents [] ∧ after65.Represents (manyA 65) ∧
    ∃ c', after65.update [0x62] = .ok c' := by
  refine ⟨by decide +kernel, by decide +kernel, ?_⟩
  have h : (match after65.update [0x62] with | .ok _ => true | .error _ => false) = true := by decide +kernel
  cases hu : after65.update [0x62] with
  | ok c    => exact ⟨c, rfl⟩
  | error e => rw [hu] at h; cases h

theorem witness_DigestDoesNotDependOnTheSplit : 8 * (List.flatten [[0x61], [], [0x62, 0x63]] : List Byte).length < 2 ^ 64 ∧
    8 * (List.flatten [manyA 100, manyA 20]).length < 2 ^ 64 := by decide +kernel

theorem witness_EngineHashesEveryMessage : 8 * ([] : List Byte).length < 2 ^ 64 ∧ 8 * (manyA 120).length < 2 ^ 64 := by
  decide +kernel

/-- A context with three bytes buffered, finished on an engine of its own. -/
theorem witness_SharedEngineGivesTheSameDigests :
    ∃ c' own' d, driveFinalize { buf := abcBytes, bitlen := 24, phase := .absorbing } State.reset = .ok (c', own', d) := by
  have h : (match driveFinalize { buf := abcBytes, bitlen := 24, phase := .absorbing } State.reset with
      | .ok _ => true | .error _ => false) = true := by decide +kernel
  cases hf : driveFinalize { buf := abcBytes, bitlen := 24, phase := .absorbing } State.reset with
  | ok r    => exact ⟨r.1, r.2.1, r.2.2, rfl⟩
  | error e => rw [hf] at h; cases h

end Sys2Proof.Tests
end

section
/-! SUPPORT. The bytes of a block as big-endian words (20_memory.md R43). -/

namespace Sys2Proof.Machine

/-- The number of a concatenation: the upper part counts in units of `2 ^ k`. -/
theorem toNat_append_eq_mul_add {n k : Nat} (x : BitVec n) (y : BitVec k) :
    (x ++ y).toNat = x.toNat * 2 ^ k + y.toNat := by
  rw [BitVec.toNat_append, ← Nat.shiftLeft_add_eq_or_of_lt y.isLt, Nat.shiftLeft_eq]

theorem packWord_toNat (m0 m1 m2 m3 : Byte) : (packWord m0 m1 m2 m3).toNat =
    m0.toNat * 2 ^ 24 + m1.toNat * 2 ^ 16 + m2.toNat * 2 ^ 8 + m3.toNat := by
  simp only [packWord, toNat_append_eq_mul_add]
  omega

theorem blockToWords_getElem (m : Vector Byte 64) (j : Fin 16) : (blockToWords m)[j] =
    packWord m[4 * j.val] m[4 * j.val + 1] m[4 * j.val + 2] m[4 * j.val + 3] :=
  Vector.getElem_ofFn j.isLt

/-- Settles O49: word `j` packs the block's bytes `4j` to `4j + 3`, whose number has those bytes as its base-256 digits. -/
theorem blockWordsAreBigEndian : Obligations.BlockWordsAreBigEndian := by
  intro m j
  rw [blockToWords_getElem, packWord_toNat]

end Sys2Proof.Machine
end

section
/-! SUPPORT. The opcode map by fields (30_encoding.md R64, R67 to R70): a row's mask fixes the opcode, the field `z` and
the index bits above the row's own, so that "the row matches the word" is a statement about the three fields. -/

namespace Sys2Proof

open Sys2Proof.Machine

/-! ### Words as their fields -/

theorem append_eq_append_iff {n k : Nat} {x x' : BitVec n} {y y' : BitVec k} :
    x ++ y = x' ++ y' ↔ x = x' ∧ y = y' := by
  refine ⟨fun h => ⟨?_, ?_⟩, fun ⟨hx, hy⟩ => hx ▸ hy ▸ rfl⟩
  · simpa only [BitVec.extractLsb'_append_eq_left] using congrArg (BitVec.extractLsb' k n) h
  · simpa only [BitVec.extractLsb'_append_eq_right] using congrArg (BitVec.extractLsb' 0 k) h

theorem append_fields_eq (c : Word) : opField c ++ zField c ++ idxField c = c := by
  have hupper : opField c ++ zField c = c.extractLsb' 8 24 := BitVec.extractLsb'_append_extractLsb'_eq_extractLsb' rfl
  have hword : c.extractLsb' 8 24 ++ idxField c = c.extractLsb' 0 32 :=
    BitVec.extractLsb'_append_extractLsb'_eq_extractLsb' rfl
  rw [hupper, hword, BitVec.extractLsb'_eq_self]

/-! ### The rows by their fields -/

/-- How many low bits of `idx` a row leaves free. -/
def Mnemonic.indexBits : Mnemonic → Nat
  | .ldiv | .compress | .stat => 0
  | .wrh | .rdh               => 3
  | .wrb                      => 4
  | .rdk                      => 6

/-- The greatest legal index of a row (R66). -/
def Mnemonic.maxIndex (m : Mnemonic) : Nat := 2 ^ m.indexBits - 1

theorem Mnemonic.mem_rows (m : Mnemonic) : m ∈ Mnemonic.rows := by
  cases m <;> decide

theorem Mnemonic.opcode_injective : Function.Injective Mnemonic.opcode := by
  intro m m'
  cases m <;> cases m' <;> decide

theorem Mnemonic.maxIndex_lt (m : Mnemonic) : m.maxIndex < 2 ^ 8 := by
  cases m <;> decide

theorem Mnemonic.mask_eq_append (m : Mnemonic) :
    m.mask = BitVec.allOnes 8 ++ BitVec.allOnes 16 ++ (BitVec.allOnes 8 <<< m.indexBits) := by
  cases m <;> rfl

theorem Mnemonic.matchBits_eq_append (m : Mnemonic) : m.matchBits = m.opcode ++ (0 : BitVec 16) ++ (0 : Index) := by
  cases m <;> rfl

/-- Clearing the `k` low bits of an index leaves nothing exactly for the numbers of `k` bits. -/
theorem and_allOnes_shiftLeft_eq_zero_iff (idx : Index) (k : Nat) :
    idx &&& (BitVec.allOnes 8 <<< k) = 0 ↔ idx.toNat ≤ 2 ^ k - 1 := by
  have hk : 0 < 2 ^ k := Nat.two_pow_pos k
  have hle : idx.toNat / 2 ^ k * 2 ^ k ≤ idx.toNat := Nat.div_mul_le_self _ _
  have hnum : (idx >>> k <<< k).toNat = idx.toNat / 2 ^ k * 2 ^ k := by
    rw [BitVec.toNat_shiftLeft, BitVec.toNat_ushiftRight, Nat.shiftLeft_eq, Nat.shiftRight_eq_div_pow,
      Nat.mod_eq_of_lt (lt_of_le_of_lt hle idx.isLt)]
  rw [← BitVec.shiftLeft_ushiftRight, ← BitVec.toNat_inj, hnum]
  simp only [BitVec.ofNat_eq_ofNat, BitVec.toNat_ofNat, Nat.zero_mod, Nat.mul_eq_zero, hk.ne', or_false,
    Nat.div_eq_zero_iff, false_or]
  omega

/-- A row matches a word exactly when the word has its opcode, a zero `z` and an index within its range (R67). -/
theorem Mnemonic.matches_iff_fields (m : Mnemonic) (c : Word) : c &&& m.mask = m.matchBits ↔
    opField c = m.opcode ∧ zField c = 0 ∧ (idxField c).toNat ≤ m.maxIndex := by
  conv_lhs => rw [← append_fields_eq c, m.mask_eq_append, m.matchBits_eq_append]
  rw [BitVec.and_append, BitVec.and_append, append_eq_append_iff, append_eq_append_iff, and_assoc,
    BitVec.and_allOnes, BitVec.and_allOnes, and_allOnes_shiftLeft_eq_zero_iff, Mnemonic.maxIndex]

/-- No word matches two rows: their opcodes differ (R67). -/
theorem Mnemonic.eq_of_matches {c : Word} {m m' : Mnemonic} (h : c &&& m.mask = m.matchBits)
    (h' : c &&& m'.mask = m'.matchBits) : m = m' := by
  have hop := ((m.matches_iff_fields c).mp h).1
  have hop' := ((m'.matches_iff_fields c).mp h').1
  exact Mnemonic.opcode_injective (hop.symm.trans hop')

/-! ### The decoder by rows -/

theorem find?_encodedBy_eq_some_iff (c : Word) (m : Mnemonic) :
    Mnemonic.rows.find? (fun m => m.encodedBy c) = some m ↔ c &&& m.mask = m.matchBits := by
  constructor
  · intro h
    simpa [Mnemonic.encodedBy] using List.find?_some h
  · intro h
    have hex : (Mnemonic.rows.find? (fun m => m.encodedBy c)).isSome :=
      List.find?_isSome.mpr ⟨m, m.mem_rows, beq_iff_eq.mpr h⟩
    obtain ⟨m', hm'⟩ := Option.isSome_iff_exists.mp hex
    have h' : c &&& m'.mask = m'.matchBits := by simpa [Mnemonic.encodedBy] using List.find?_some hm'
    rw [hm', Mnemonic.eq_of_matches h' h]

theorem decodeWord_eq_ok_iff (c : Word) (m : Mnemonic) (idx : Index) :
    decodeWord c = .ok (m, idx) ↔ c &&& m.mask = m.matchBits ∧ idx = idxField c := by
  rw [← find?_encodedBy_eq_some_iff, decodeWord]
  cases Mnemonic.rows.find? (fun m => m.encodedBy c) with
  | none => simp
  | some m' => simp [eq_comm]

/-- The decoder refuses exactly the words that no row matches. -/
theorem decodeWord_eq_error_iff (c : Word) :
    (∃ e, decodeWord c = .error e) ↔ ∀ m : Mnemonic, ¬ c &&& m.mask = m.matchBits := by
  constructor
  · rintro ⟨e, he⟩ m hm
    have hok := (decodeWord_eq_ok_iff c m _).mpr ⟨hm, rfl⟩
    rw [he] at hok
    cases hok
  · intro hno
    cases hd : decodeWord c with
    | error e => exact ⟨e, rfl⟩
    | ok p => exact absurd ((decodeWord_eq_ok_iff c p.1 p.2).mp hd).1 (hno p.1)

theorem decode_eq_error_iff (c : Command) (e : Illegal) : decode c = .error e ↔ decodeWord c.cmd = .error e := by
  unfold decode
  cases decodeWord c.cmd <;> simp

/-- Settles O11: the first row that matches a word is the only one. -/
theorem decoderFollowsTheOpcodeMap : Obligations.DecoderFollowsTheOpcodeMap :=
  decodeWord_eq_ok_iff

/-! ### The legal words -/

/-- The command word of a row and an index: `{op, z = 0, idx}`. -/
def Mnemonic.wordOf (m : Mnemonic) (idx : Index) : Word := m.opcode ++ (0 : BitVec 16) ++ idx

/-- The words of a row, by index. -/
def Mnemonic.words (m : Mnemonic) : List Word :=
  (List.range (m.maxIndex + 1)).map fun i => m.wordOf (BitVec.ofNat 8 i)

/-- The words of all rows, in table order. -/
def legalWords : List Word := Mnemonic.rows.flatMap Mnemonic.words

theorem Mnemonic.wordOf_injective (m : Mnemonic) : Function.Injective m.wordOf := by
  intro idx idx' h
  exact (append_eq_append_iff.mp h).2

theorem Mnemonic.mem_words_iff (m : Mnemonic) (c : Word) : c ∈ m.words ↔ c &&& m.mask = m.matchBits := by
  rw [m.matches_iff_fields, Mnemonic.words, List.mem_map]
  constructor
  · rintro ⟨i, hi, rfl⟩
    have hmax : i ≤ m.maxIndex := Nat.lt_succ_iff.mp (List.mem_range.mp hi)
    obtain ⟨hop, hz, hidx⟩ := Laws.EncodingFields.fields_of_append m.opcode (BitVec.ofNat 8 i)
    refine ⟨hop, hz, ?_⟩
    rw [Mnemonic.wordOf, hidx, BitVec.toNat_ofNat]
    exact (Nat.mod_le i _).trans hmax
  · rintro ⟨hop, hz, hidx⟩
    refine ⟨(idxField c).toNat, List.mem_range.mpr (Nat.lt_succ_iff.mpr hidx), ?_⟩
    rw [BitVec.ofNat_toNat, BitVec.setWidth_eq, Mnemonic.wordOf, ← hop, ← hz, append_fields_eq]

theorem mem_legalWords_iff (c : Word) : c ∈ legalWords ↔ ∃ m : Mnemonic, c &&& m.mask = m.matchBits := by
  simp only [legalWords, List.mem_flatMap, Mnemonic.mem_words_iff, Mnemonic.mem_rows, true_and]

theorem Mnemonic.nodup_words (m : Mnemonic) : m.words.Nodup := by
  refine List.Nodup.map_on (fun i hi j hj h => ?_) List.nodup_range
  have hlt := m.maxIndex_lt
  have hij := congrArg BitVec.toNat (m.wordOf_injective h)
  rw [List.mem_range] at hi hj
  rwa [BitVec.toNat_ofNat, BitVec.toNat_ofNat, Nat.mod_eq_of_lt (by omega), Nat.mod_eq_of_lt (by omega)] at hij

theorem nodup_legalWords : legalWords.Nodup := by
  refine List.nodup_flatMap.mpr ⟨fun m _ => m.nodup_words, ?_⟩
  have hrows : Mnemonic.rows.Pairwise (· ≠ ·) := by decide
  refine hrows.imp fun {m m'} hne c hc hc' => hne ?_
  exact Mnemonic.eq_of_matches ((m.mem_words_iff c).mp hc) ((m'.mem_words_iff c).mp hc')

theorem length_legalWords : legalWords.length = 99 := by
  simp [legalWords, Mnemonic.rows, Mnemonic.words, Mnemonic.maxIndex, Mnemonic.indexBits]

/-- Settles O12: the rows by their fields, disjoint because their opcodes differ, and the words listed row by row. -/
theorem opcodeRowsAreDisjointAndEncode99Words : Obligations.OpcodeRowsAreDisjointAndEncode99Words := by
  refine ⟨rfl, fun c m => ?_, fun c m m' => Mnemonic.eq_of_matches,
    legalWords, nodup_legalWords, length_legalWords, mem_legalWords_iff⟩
  cases m <;> exact Mnemonic.matches_iff_fields _ c

/-! ### The illegal words -/

/-- The opcodes in use are 0x01 to 0x07 (R69). -/
theorem exists_opcode_iff (op : BitVec 8) : (∃ m : Mnemonic, op = m.opcode) ↔ 1 ≤ op.toNat ∧ op.toNat ≤ 7 := by
  constructor
  · rintro ⟨m, rfl⟩
    cases m <;> decide
  · rintro ⟨h1, h7⟩
    have hrow : ∀ k : Fin 7, (Mnemonic.rows[k.val]'k.isLt).opcode = BitVec.ofNat 8 (k.val + 1) := by decide
    refine ⟨_, .symm ((hrow ⟨op.toNat - 1, by omega⟩).trans ?_)⟩
    simp [Nat.sub_add_cancel h1]

/-- Of a word with a row's opcode only that row can match. -/
theorem forall_not_matches_iff_of_opcode {c : Word} {m : Mnemonic} (hop : opField c = m.opcode) :
    (∀ m' : Mnemonic, ¬ c &&& m'.mask = m'.matchBits) ↔ zField c ≠ 0 ∨ m.maxIndex < (idxField c).toNat := by
  rw [← not_le, ← not_and_or]
  constructor
  · intro hno hlegal
    exact hno m ((m.matches_iff_fields c).mpr ⟨hop, hlegal⟩)
  · intro hillegal m' hm'
    obtain ⟨hop', hlegal⟩ := (m'.matches_iff_fields c).mp hm'
    obtain rfl := Mnemonic.opcode_injective (hop.symm.trans hop')
    exact hillegal hlegal

/-- The words no row matches are those listed in R70. -/
theorem forall_not_matches_iff (c : Word) : (∀ m : Mnemonic, ¬ c &&& m.mask = m.matchBits) ↔
    (opField c = 0 ∨ 8 ≤ (opField c).toNat) ∨
    zField c ≠ 0 ∨
    ((opField c = 1 ∨ opField c = 5 ∨ opField c = 6) ∧ idxField c ≠ 0) ∨
    ((opField c = 2 ∨ opField c = 3) ∧ 7 < (idxField c).toNat) ∨
    (opField c = 4 ∧ 15 < (idxField c).toNat) ∨
    (opField c = 7 ∧ 63 < (idxField c).toNat) := by
  by_cases hop : ∃ m : Mnemonic, opField c = m.opcode
  · obtain ⟨m, hm⟩ := hop
    have hidx : idxField c ≠ 0 ↔ 0 < (idxField c).toNat := by
      rw [Nat.pos_iff_ne_zero, ne_eq, ne_eq, ← BitVec.toNat_inj]; rfl
    rw [forall_not_matches_iff_of_opcode hm, hidx, hm]
    cases m <;> simp [Mnemonic.opcode, Mnemonic.maxIndex, Mnemonic.indexBits]
  · have hreserved : opField c = 0 ∨ 8 ≤ (opField c).toNat := by
      rw [exists_opcode_iff] at hop
      rw [← BitVec.toNat_inj]
      simp only [BitVec.ofNat_eq_ofNat, BitVec.toNat_ofNat, Nat.zero_mod]
      omega
    exact iff_of_true (fun m hm => hop ⟨m, ((m.matches_iff_fields c).mp hm).1⟩) (.inl hreserved)

/-- Settles O13: the decoder refuses the words no row matches, and the step answers them and nothing else. -/
theorem illegalWordsAreExactlyThese : Obligations.IllegalWordsAreExactlyThese := by
  refine ⟨fun c => ?_, fun s c e he => ?_⟩
  · simp only [decode_eq_error_iff]
    rw [decodeWord_eq_error_iff, forall_not_matches_iff]
  · exact ⟨s.answer .illegalCommand 0, step_of_illegal (s.present_inputs c) he, ⟨rfl, rfl, rfl⟩, rfl, rfl⟩

/-! ### The data word -/

theorem assemble_wdata_irrel {m : Mnemonic} (h : m.format ≠ .id) (idx : Index) (w w' : Word) :
    assemble m idx w = assemble m idx w' := by
  cases m with
  | wrh | wrb => exact absurd rfl h
  | ldiv | rdh | compress | stat | rdk => rfl

theorem decode_wdata_irrel {c : Word} (h : ∀ m idx, decodeWord c = .ok (m, idx) → m.format ≠ .id) (w w' : Word) :
    decode ⟨c, w⟩ = decode ⟨c, w'⟩ := by
  unfold decode
  cases hd : decodeWord c with
  | error e => rfl
  | ok p => exact congrArg Except.ok (assemble_wdata_irrel (h p.1 p.2 hd) p.2 w w')

/-- A step sees of the command presented only what it decodes to. -/
theorem step_present_congr {c c' : Command} (h : decode c = decode c') (s : State) :
    step (s.present c) = step (s.present c') := by
  simp only [step, State.takeInput_present, h]

/-- Settles O14: outside format ID the data word does not reach the instruction, and a step sees only that. -/
theorem wdataIsIgnoredOutsideFormatId : Obligations.WdataIsIgnoredOutsideFormatId := by
  intro c w w' hformat
  have hdecode := decode_wdata_irrel hformat w w'
  exact ⟨hdecode, step_present_congr hdecode⟩

end Sys2Proof
end

section
/-! SUPPORT. The command word of a row and an index, as the spec writes it (30_encoding.md R64 to R66): whether it decodes
depends on the row's index range only. -/

namespace Sys2Proof

open Sys2Proof.Machine

/-- A row's fixed bits with an index in bits 7:0 are that row's word for the index (R64, R67). -/
theorem Mnemonic.matchBits_or_index (m : Mnemonic) (idx : Index) :
    m.matchBits ||| idx.zeroExtend 32 = m.wordOf idx := by
  have hidx : idx.zeroExtend 32 = (0 : BitVec 8) ++ (0 : BitVec 16) ++ idx :=
    BitVec.setWidth_eq_append (by decide)
  rw [m.matchBits_eq_append, hidx, BitVec.or_append, BitVec.or_append, Mnemonic.wordOf]
  simp

/-- A row's word for an index matches the row exactly when the index is in the row's range (R66). -/
theorem Mnemonic.wordOf_matches_iff (m : Mnemonic) (idx : Index) :
    m.wordOf idx &&& m.mask = m.matchBits ↔ idx.toNat ≤ m.maxIndex := by
  obtain ⟨hop, hz, hidx⟩ := Laws.EncodingFields.fields_of_append m.opcode idx
  rw [m.matches_iff_fields, Mnemonic.wordOf, hop, hz, hidx]
  simp

theorem decode_wordOf {m : Mnemonic} {idx : Index} (h : idx.toNat ≤ m.maxIndex) (wdata : Word) :
    decode ⟨m.wordOf idx, wdata⟩ = .ok (assemble m idx wdata) := by
  obtain ⟨-, -, hidx⟩ := Laws.EncodingFields.fields_of_append m.opcode idx
  have hword : decodeWord (m.wordOf idx) = .ok (m, idx) :=
    (decodeWord_eq_ok_iff _ m idx).mpr ⟨(m.wordOf_matches_iff idx).mpr h, hidx.symm⟩
  simp only [decode, hword]

/-- No row encodes a word whose index is above the range of the row its opcode names (R70). -/
theorem exists_decode_wordOf_eq_error {m : Mnemonic} {idx : Index} (h : m.maxIndex < idx.toNat) (wdata : Word) :
    ∃ e, decode ⟨m.wordOf idx, wdata⟩ = .error e := by
  obtain ⟨hop, -, hidx⟩ := Laws.EncodingFields.fields_of_append m.opcode idx
  have hno : ∀ m' : Mnemonic, ¬ m.wordOf idx &&& m'.mask = m'.matchBits :=
    (forall_not_matches_iff_of_opcode hop).mpr (.inr (hidx.symm ▸ h))
  simp only [decode_eq_error_iff]
  exact (decodeWord_eq_error_iff _).mpr hno

theorem step_present_wordOf_of_maxIndex_lt {m : Mnemonic} {idx : Index} (h : m.maxIndex < idx.toNat) (wdata : Word)
    (s : State) : step (s.present ⟨m.wordOf idx, wdata⟩) = .next (s.answer .illegalCommand 0) := by
  obtain ⟨e, he⟩ := exists_decode_wordOf_eq_error h wdata
  exact step_of_illegal (s.present_inputs _) he

end Sys2Proof
end

section
/-! SUPPORT. The host's read port of the ROM (40_round_constants.md R81). -/

namespace Sys2Proof.Machine

theorem exec_rdk {idx : Index} (hi : idx.toNat < 64) (s : State) :
    exec (.rdk idx) s = .next (s.answer .ok (roundConstant ⟨idx.toNat, hi⟩)) := by
  simp only [exec, execRdk, romIndex, elementOf_of_lt hi, respond_eq]

/-- Settles O7: RDK's words are the row's words for an index, legal up to 63, and RDK only answers. -/
theorem rdkReadsTheRom : Obligations.RdkReadsTheRom := by
  have hword (idx : Index) : (0x07000000 : Word) ||| idx.zeroExtend 32 = Mnemonic.rdk.wordOf idx :=
    Mnemonic.rdk.matchBits_or_index idx
  refine ⟨fun idx wdata hle => ?_, fun idx wdata s hlt => ?_, fun idx s hi => ?_⟩
  · rw [hword]
    exact decode_wordOf (m := .rdk) hle wdata
  · rw [hword]
    exact step_present_wordOf_of_maxIndex_lt (m := .rdk) hlt wdata s
  · exact ⟨_, exec_rdk hi s, ⟨rfl, rfl, rfl⟩, rfl, rfl⟩

end Sys2Proof.Machine
end

section
/-! SUPPORT. The word functions of the expander, bit by bit (41_message_schedule.md R90 to R93). -/

namespace Sys2Proof.Machine

/-- A bit of a rotation comes from the right shift below the wrap and from the left shift above it. -/
theorem rotr_getLsbD (x : Word) (n : Nat) (hn : 0 < n ∧ n < 32) {k : Nat} (hk : k < 32) :
    (rotr x n hn).getLsbD k = x.getLsbD ((k + n) % 32) := by
  rw [rotr, BitVec.getLsbD_or, BitVec.getLsbD_ushiftRight, BitVec.getLsbD_shiftLeft, Nat.add_comm n k]
  rcases Nat.lt_or_ge (k + n) 32 with hlow | hwrap
  · have hleft : k < 32 - n := by omega
    simp [hleft, Nat.mod_eq_of_lt hlow]
  · have hleft : ¬ k < 32 - n := by omega
    have hbit : (k + n) % 32 = k - (32 - n) := by omega
    simp [hk, hleft, hbit, BitVec.getLsbD_of_ge x (k + n) hwrap]

theorem shr_getLsbD (x : Word) (n : Nat) (hn : 0 < n ∧ n < 32) (k : Nat) :
    (shr x n hn).getLsbD k = (decide (k + n ≤ 31) && x.getLsbD (k + n)) := by
  rw [shr, BitVec.getLsbD_ushiftRight, Nat.add_comm n k]
  by_cases hle : k + n ≤ 31
  · simp [hle]
  · simp [hle, BitVec.getLsbD_of_ge x (k + n) (by omega)]

theorem shr_toNat (x : Word) (n : Nat) (hn : 0 < n ∧ n < 32) : (shr x n hn).toNat = x.toNat / 2 ^ n := by
  rw [shr, BitVec.toNat_ushiftRight, Nat.shiftRight_eq_div_pow]

/-- Settles O32: `rotr` is the two shifts by definition, and each bit comes from one of them. -/
theorem rotrPermutesTheBits : Obligations.RotrPermutesTheBits :=
  fun x n hn => ⟨rfl, fun _ hk => rotr_getLsbD x n hn hk⟩

/-- Settles O33: the value and the bits of a right shift. -/
theorem shrIsFloorDivision : Obligations.ShrIsFloorDivision :=
  fun x n hn => ⟨shr_toNat x n hn, fun k _ => shr_getLsbD x n hn k⟩

/-- Two rotations and a right shift joined by xor, the form of `ssig0` and `ssig1`: the shift adds nothing to the top
bits. -/
theorem rotr_xor_rotr_xor_shr_getLsbD (x : Word) (m n p : Nat) (hm : 0 < m ∧ m < 32) (hn : 0 < n ∧ n < 32)
    (hp : 0 < p ∧ p < 32) {k : Nat} (hk : k < 32) : (rotr x m hm ^^^ rotr x n hn ^^^ shr x p hp).getLsbD k =
    (x.getLsbD ((k + m) % 32) ^^ x.getLsbD ((k + n) % 32) ^^ (if k ≤ 31 - p then x.getLsbD (k + p) else false)) := by
  have hshift : k + p ≤ 31 ↔ k ≤ 31 - p := by omega
  simp only [BitVec.getLsbD_xor, rotr_getLsbD _ _ _ hk, shr_getLsbD, hshift, Bool.if_false_right]

/-- Settles O34: each function's bits are the xor of the bits of its three parts. -/
theorem smallSigmaBits : Obligations.SmallSigmaBits :=
  ⟨fun _ => ⟨rfl, rfl⟩, fun x _ hk =>
    ⟨rotr_xor_rotr_xor_shr_getLsbD x 7 18 3 _ _ _ hk, rotr_xor_rotr_xor_shr_getLsbD x 17 19 10 _ _ _ hk⟩⟩

end Sys2Proof.Machine
end

section
/-! SUPPORT. The micro-operations of the expander and the function `sched` they compute (41_message_schedule.md R95 to
R98). -/

namespace Sys2Proof.Machine

theorem runMicroOps_cons_of_ok {m : MicroOp} {s s' : State} {x x' : Transient} (h : m.run s x = .ok (s', x'))
    (ms : List MicroOp) : runMicroOps (m :: ms) s x = runMicroOps ms s' x' := by
  simp only [runMicroOps, h]

/-! ### SLOAD and SEXP, one at a time -/

theorem sload_run {s : State} {w : Vector Word 16} (h : ∀ j : Fin 16, s.b[j] = some w[j]) (x : Transient) :
    MicroOp.sload.run s x = .ok (s, x.writeBlock w) := by
  rw [MicroOp.run, sloadOp_of_some x h]
  rfl

theorem sexp_run (s : State) {x : Transient} {t : Fin 64} {w16 w15 w7 w2 : Word}
    (h16 : x.w[t.val - 16] = some w16) (h15 : x.w[t.val - 15] = some w15) (h7 : x.w[t.val - 7] = some w7)
    (h2 : x.w[t.val - 2] = some w2) :
    (MicroOp.sexp t).run s x = .ok (s, x.writeW t (scheduleSum w16 w15 w7 w2)) := by
  simp only [MicroOp.run, sexpOp, Transient.readW_of_some _ h16, Transient.readW_of_some _ h15,
    Transient.readW_of_some _ h7, Transient.readW_of_some _ h2]
  rfl

/-- Settles O37: SLOAD is the write of the block's sixteen words. -/
theorem sloadCopiesTheBlock : Obligations.SloadCopiesTheBlock := by
  intro s x w hb
  exact ⟨x.writeBlock w, sload_run hb x, x.writeBlock_wr w, fun j => x.writeBlock_w_lt w j.val j.isLt,
    fun t ht => x.writeBlock_w_ge w t.val ht t.isLt⟩

/-- Settles O38: SEXP is the write of one schedule word, the sum of four words read. -/
theorem sexpComputesTheRecurrence : Obligations.SexpComputesTheRecurrence := by
  intro s x t _ w16 w15 w7 w2 h16 h15 h7 h2
  refine ⟨x.writeW t (scheduleSum w16 w15 w7 w2), sexp_run s h16 h15 h7 h2, x.writeW_wr t _, ?_, fun u hu => ?_⟩
  · exact (x.writeW_w t _ t.val t.isLt).trans (if_pos rfl)
  · exact (x.writeW_w t _ u.val u.isLt).trans (if_neg (Fin.val_ne_of_ne hu))

/-! ### The recurrence of `sched` -/

theorem schedulePrefix_succ (b : Vector Word 16) (n : Nat) : schedulePrefix b (n + 1) =
    (schedulePrefix b n).push (scheduleSum (schedulePrefix b n)[n] (schedulePrefix b n)[n + 1]
      (schedulePrefix b n)[n + 9] (schedulePrefix b n)[n + 14]) := rfl

/-- The words of the schedule computed so far stay as they are when more are computed. -/
theorem schedulePrefix_getElem_of_le (b : Vector Word 16) {n m i : Nat} (hnm : n ≤ m) (hi : i < 16 + n) :
    (schedulePrefix b m)[i] = (schedulePrefix b n)[i] := by
  induction m, hnm using Nat.le_induction with
  | base => rfl
  | succ m hnm ih =>
    have him : i < 16 + m := by omega
    rw [schedulePrefix_succ, ← ih]
    exact Vector.getElem_push_lt him

theorem sched_getElem_eq_schedulePrefix (b : Vector Word 16) {n i : Nat} (hn : n ≤ 48) (hi : i < 16 + n) :
    (sched b)[i] = (schedulePrefix b n)[i] :=
  schedulePrefix_getElem_of_le b hn hi

theorem sched_getElem_lt (b : Vector Word 16) {t : Nat} (ht : t < 16) : (sched b)[t] = b[t] :=
  sched_getElem_eq_schedulePrefix b (Nat.zero_le 48) ht

/-- Word `16 + n` is the one pushed after the words `0` to `15 + n`, and the sum of four of them. -/
theorem sched_getElem_add_16 (b : Vector Word 16) {n : Nat} (hn : n < 48) : (sched b)[16 + n] =
    scheduleSum (sched b)[n] (sched b)[n + 1] (sched b)[n + 9] (sched b)[n + 14] := by
  have hlast : (sched b)[16 + n] = (schedulePrefix b (n + 1))[16 + n] :=
    sched_getElem_eq_schedulePrefix b hn (Nat.lt_succ_self _)
  have hearlier {i : Nat} (hi : i < 16 + n) : (sched b)[i] = (schedulePrefix b n)[i] :=
    sched_getElem_eq_schedulePrefix b hn.le hi
  rw [hlast, hearlier (i := n) (by omega), hearlier (i := n + 1) (by omega), hearlier (i := n + 9) (by omega),
    hearlier (i := n + 14) (by omega), schedulePrefix_succ]
  exact Vector.getElem_push_eq

theorem sched_getElem_ge (b : Vector Word 16) (t : Fin 64) (ht : 16 ≤ t.val) : (sched b)[t.val] =
    scheduleSum (sched b)[t.val - 16] (sched b)[t.val - 15] (sched b)[t.val - 7] (sched b)[t.val - 2] := by
  obtain ⟨t, hlt⟩ := t
  obtain ⟨n, rfl⟩ := Nat.exists_eq_add_of_le ht
  have h15 : 16 + n - 15 = n + 1 := by omega
  have h7 : 16 + n - 7 = n + 9 := by omega
  have h2 : 16 + n - 2 = n + 14 := by omega
  simp only [Nat.add_sub_cancel_left, h15, h7, h2]
  exact sched_getElem_add_16 b (by omega)

/-! ### The micro-operations compute it -/

/-- The first `n` schedule words hold the values of `v`. -/
def Transient.HoldsUpTo (x : Transient) (v : Vector Word 64) (n : Nat) : Prop :=
  ∀ t (ht : t < 64), t < n → x.w[t] = some v[t]

theorem Transient.holdsUpTo_writeBlock_sched (x : Transient) (w : Vector Word 16) :
    (x.writeBlock w).HoldsUpTo (sched w) 16 := by
  intro t ht hlt
  rw [x.writeBlock_w_lt w t hlt, sched_getElem_lt w hlt]

theorem Transient.HoldsUpTo.writeW {x : Transient} {v : Vector Word 64} {t : Fin 64} (h : x.HoldsUpTo v t.val) :
    (x.writeW t v[t]).HoldsUpTo v (t.val + 1) := by
  intro u hu hlt
  rw [x.writeW_w]
  split
  · next heq => simp only [heq, Fin.getElem_fin]
  · next hne => exact h u hu (by omega)

/-- SEXP `t` on a state whose first `t` words are those of `sched` writes the next one. -/
theorem sexp_run_of_holdsUpTo_sched (s : State) {x : Transient} {w : Vector Word 16} {t : Fin 64} (ht : 16 ≤ t.val)
    (hx : x.HoldsUpTo (sched w) t.val) : (MicroOp.sexp t).run s x = .ok (s, x.writeW t (sched w)[t]) := by
  rw [Fin.getElem_fin, sched_getElem_ge w t ht]
  exact sexp_run s (hx _ _ (by omega)) (hx _ _ (by omega)) (hx _ _ (by omega)) (hx _ _ (by omega))

/-- The SEXPs still to run complete the schedule, by induction on their number `n = 64 - t`. -/
theorem runMicroOps_sexps (s : State) (w : Vector Word 16) (n t : Nat) (hn : t + n = 64) (ht : 16 ≤ t)
    (x : Transient) (hx : x.HoldsUpTo (sched w) t) :
    ∃ x', runMicroOps (((List.finRange 64).drop t).map .sexp) s x = .ok (s, x') ∧ x'.wr = x.wr ∧
      x'.HoldsUpTo (sched w) 64 := by
  induction n generalizing t x with
  | zero =>
    obtain rfl : t = 64 := hn
    exact ⟨x, rfl, rfl, hx⟩
  | succ n ih =>
    have hlt : t < 64 := by omega
    have hrun := sexp_run_of_holdsUpTo_sched s (t := ⟨t, hlt⟩) ht hx
    obtain ⟨x', hrest, hwr, hall⟩ := ih (t + 1) (by omega) (by omega) _ (hx.writeW (t := ⟨t, hlt⟩))
    refine ⟨x', ?_, hwr.trans (x.writeW_wr _ _), hall⟩
    rw [List.drop_eq_getElem_cons (by simpa using hlt), List.map_cons, List.getElem_finRange, ← hrest]
    exact runMicroOps_cons_of_ok hrun _

/-- Settles O39: SLOAD fills the first sixteen words, and each SEXP the next one. -/
theorem schedIsWhatTheScheduleMicroOpsCompute : Obligations.SchedIsWhatTheScheduleMicroOpsCompute := by
  refine fun w => ⟨fun t => sched_getElem_lt w, sched_getElem_ge w, fun s x hb => ?_⟩
  obtain ⟨x', hrun, hwr, hall⟩ :=
    runMicroOps_sexps s w 48 16 rfl le_rfl (x.writeBlock w) (x.holdsUpTo_writeBlock_sched w)
  refine ⟨x', ?_, hwr.trans (x.writeBlock_wr w), fun t => hall t.val t.isLt t.isLt⟩
  rw [runMicroOps_cons_of_ok (sload_run hb x), hrun]

end Sys2Proof.Machine
end

section
/-! SUPPORT. The word functions of the round ALU, bit by bit (42_compression_round.md R110 to R113). -/

namespace Sys2Proof.Machine

/-- Three rotations joined by xor, the form of `bsig0` and `bsig1`. -/
theorem rotr_xor_rotr_xor_rotr_getLsbD (x : Word) (m n p : Nat) (hm : 0 < m ∧ m < 32) (hn : 0 < n ∧ n < 32)
    (hp : 0 < p ∧ p < 32) {k : Nat} (hk : k < 32) : (rotr x m hm ^^^ rotr x n hn ^^^ rotr x p hp).getLsbD k =
    (x.getLsbD ((k + m) % 32) ^^ x.getLsbD ((k + n) % 32) ^^ x.getLsbD ((k + p) % 32)) := by
  simp only [BitVec.getLsbD_xor, rotr_getLsbD _ _ _ hk]

/-- Settles O35: each function's bits are the xor of the bits of its three rotations. -/
theorem bigSigmaBits : Obligations.BigSigmaBits :=
  ⟨fun _ => ⟨rfl, rfl⟩, fun x _ hk =>
    ⟨rotr_xor_rotr_xor_rotr_getLsbD x 2 13 22 _ _ _ hk, rotr_xor_rotr_xor_rotr_getLsbD x 6 11 25 _ _ _ hk⟩⟩

/-- Of the two terms of `ch`, the one whose mask bit in `x` is 0 vanishes. -/
theorem ch_getLsbD (x y z : Word) {k : Nat} (hk : k < 32) :
    (ch x y z).getLsbD k = if x.getLsbD k then y.getLsbD k else z.getLsbD k := by
  simp only [ch, BitVec.getLsbD_xor, BitVec.getLsbD_and, BitVec.getLsbD_not, hk]
  cases x.getLsbD k <;> simp

theorem xor_of_pairwise_and_eq_two_le : ∀ a b c : Bool,
    ((a && b) ^^ (a && c) ^^ (b && c)) = decide (2 ≤ a.toNat + b.toNat + c.toNat) := by decide

theorem maj_getLsbD (x y z : Word) (k : Nat) : (maj x y z).getLsbD k =
    decide (2 ≤ (x.getLsbD k).toNat + (y.getLsbD k).toNat + (z.getLsbD k).toNat) := by
  simp only [maj, BitVec.getLsbD_xor, BitVec.getLsbD_and]
  exact xor_of_pairwise_and_eq_two_le _ _ _

theorem maj_swap_left (x y z : Word) : maj x y z = maj y x z := by
  rw [maj, maj, BitVec.and_comm x y, BitVec.xor_assoc, BitVec.xor_comm (x &&& z), ← BitVec.xor_assoc]

theorem maj_swap_right (x y z : Word) : maj x y z = maj x z y := by
  rw [maj, maj, BitVec.and_comm y z, BitVec.xor_comm (x &&& y)]

/-- Settles O36: the bits of `ch` and `maj`, and the two exchanges of `maj`'s arguments. -/
theorem chooseSelectsAndMajorityCounts : Obligations.ChooseSelectsAndMajorityCounts :=
  ⟨fun x y z => ⟨rfl, rfl, maj_swap_left x y z, maj_swap_right x y z⟩,
    fun x y z k hk => ⟨ch_getLsbD x y z hk, maj_getLsbD x y z k⟩⟩

end Sys2Proof.Machine
end

section
/-! SUPPORT. The micro-operations of the round ALU and the function `rounds` they compute (42_compression_round.md R114
to R117). -/

namespace Sys2Proof.Machine

/-- Round `t` of a schedule, on the working registers. -/
def roundAt (w : Vector Word 64) (r : Working) (t : Fin 64) : Working := roundStep r (roundConstant t) w[t]

theorem rounds_eq_foldl_roundAt (v : Vector Word 8) (w : Vector Word 64) :
    rounds v w = ((List.finRange 64).foldl (roundAt w) (Working.ofVector v)).toVector := rfl

/-! ### ROUND, one at a time and in sequence -/

theorem round_run (s : State) {x : Transient} {r : Working} {t : Fin 64} {v : Word} (hr : x.wr = some r)
    (hw : x.w[t] = some v) :
    (MicroOp.round t).run s x = .ok (s, { x with wr := some (roundStep r (roundConstant t) v) }) := by
  simp only [MicroOp.run, roundOp, Transient.readWorking_of_some hr, Transient.readW_of_some t.isLt hw]
  rfl

/-- On a full schedule a list of ROUNDs folds `roundAt` over the working registers. -/
theorem runMicroOps_rounds (s : State) {x : Transient} {w : Vector Word 64} (hw : ∀ t : Fin 64, x.w[t] = some w[t])
    (ts : List (Fin 64)) (r : Working) : runMicroOps (ts.map .round) s { x with wr := some r } =
      .ok (s, { x with wr := some (ts.foldl (roundAt w) r) }) := by
  induction ts generalizing r with
  | nil => rfl
  | cons t ts ih =>
    have hround := round_run s (x := { x with wr := some r }) rfl (hw t)
    exact (runMicroOps_cons_of_ok hround _).trans (ih (roundAt w r t))

/-- WINIT starts the fold at the words of `H`. -/
theorem runMicroOps_winit_rounds (s : State) {x : Transient} {w : Vector Word 64}
    (hw : ∀ t : Fin 64, x.w[t] = some w[t]) (ts : List (Fin 64)) : runMicroOps (.winit :: ts.map .round) s x =
      .ok (s, { x with wr := some (ts.foldl (roundAt w) (Working.ofVector s.h)) }) :=
  (runMicroOps_cons_of_ok rfl _).trans (runMicroOps_rounds s hw ts _)

/-! ### The recurrence of `rounds` -/

/-- A sequence that follows `f` one index at a time ends where the fold of `f` over the indexes ends. -/
theorem foldl_finRange_eq_of_recurrence {α : Type} {n : Nat} (f : α → Fin n → α) (r : Nat → α)
    (h : ∀ t : Fin n, r (t.val + 1) = f (r t.val) t) : (List.finRange n).foldl f (r 0) = r n := by
  induction n with
  | zero => rfl
  | succ n ih =>
    have hinit : (List.finRange n).foldl (fun a t => f a t.castSucc) (r 0) = r n := ih _ fun t => h t.castSucc
    rw [List.finRange_succ_last, List.foldl_append, List.foldl_map, hinit]
    exact (h (Fin.last n)).symm

/-- Settles O40: the micro-operations and `rounds` are one fold, and its steps are the given recurrence. -/
theorem roundsIsWhatTheRoundMicroOpsCompute : Obligations.RoundsIsWhatTheRoundMicroOpsCompute := by
  intro s x w r hw hinit hstep
  have hrec (t : Fin 64) : r (t.val + 1) = roundAt w (r t.val) t := by
    obtain ⟨t1, t2, rfl, rfl, hnext⟩ := hstep t
    exact hnext
  have hfold : (List.finRange 64).foldl (roundAt w) (Working.ofVector s.h) = r 64 := by
    rw [← foldl_finRange_eq_of_recurrence (roundAt w) r hrec, hinit]
    rfl
  constructor
  · rw [runMicroOps_winit_rounds s hw, hfold]
  · rw [rounds_eq_foldl_roundAt, hfold, Working.toVector]

end Sys2Proof.Machine
end

section
/-! SUPPORT. The micro-operation FOLD, and what the other micro-operations leave unchanged (43_state_accumulator.md
R130). -/

namespace Sys2Proof.Machine

theorem foldWords_getElem (s r : Vector Word 8) (i : Fin 8) : (foldWords s r)[i] = s[i] + r[i] :=
  Vector.getElem_ofFn i.isLt

theorem fold_run (s : State) {x : Transient} {r : Working} (hr : x.wr = some r) :
    MicroOp.fold.run s x = .ok (s.loadH (foldWords s.h r.toVector), x) := by
  simp only [MicroOp.run, foldOp, Transient.readWorking_of_some hr]
  rfl

/-- The form of SLOAD, SEXP and ROUND: a computation on the transient state beside an unchanged machine state. -/
theorem state_eq_of_transient_op_eq_ok {e : Except Fault Transient} {s s' : State} {x' : Transient}
    (h : (do return (s, ← e)) = Except.ok (s', x')) : s' = s := by
  cases e with
  | ok x => cases h; rfl
  | error f => cases h

theorem MicroOp.run_state_eq_of_ne_fold {m : MicroOp} {s s' : State} {x x' : Transient} (hm : m ≠ .fold)
    (h : m.run s x = .ok (s', x')) : s' = s := by
  cases m with
  | sload | sexp | round => exact state_eq_of_transient_op_eq_ok h
  | winit => cases h; rfl
  | fold => exact absurd rfl hm

/-- Settles O42: FOLD is the load of the eight sums, and no other micro-operation has a write to the machine state. -/
theorem foldIsTheOnlyMicroOpThatWritesState : Obligations.FoldIsTheOnlyMicroOpThatWritesState :=
  ⟨fun s _ r hr => ⟨s.loadH (foldWords s.h r.toVector), fold_run s hr, foldWords_getElem s.h r.toVector,
      s.loadH_b _, s.loadH_bv _, s.loadH_inputs _, s.loadH_responses _⟩,
    fun _ _ _ _ _ => MicroOp.run_state_eq_of_ne_fold⟩

end Sys2Proof.Machine
end

section
/-! SUPPORT. Command words as a row's fixed bits with an index, or alone where the row has no index (30_encoding.md R65,
R67, R70). -/

namespace Sys2Proof

open Sys2Proof.Machine

theorem decode_matchBits_or_index {m : Mnemonic} {idx : Index} (h : idx.toNat ≤ m.maxIndex) (wdata : Word) :
    decode ⟨m.matchBits ||| idx.zeroExtend 32, wdata⟩ = .ok (assemble m idx wdata) := by
  rw [m.matchBits_or_index, decode_wordOf h]

theorem step_present_matchBits_or_index {m : Mnemonic} {idx : Index} (h : m.maxIndex < idx.toNat) (wdata : Word)
    (s : State) :
    step (s.present ⟨m.matchBits ||| idx.zeroExtend 32, wdata⟩) = .next (s.answer .illegalCommand 0) := by
  rw [m.matchBits_or_index, step_present_wordOf_of_maxIndex_lt h]

theorem decode_matchBits (m : Mnemonic) (wdata : Word) : decode ⟨m.matchBits, wdata⟩ = .ok (assemble m 0 wdata) := by
  rw [m.matchBits_eq_append]
  exact decode_wordOf (Nat.zero_le _) wdata

/-- Where a row fixes every bit, any other word with its opcode is illegal: no other row has that opcode. -/
theorem step_present_of_ne_matchBits {m : Mnemonic} (hmask : m.mask = BitVec.allOnes 32) {c : Word}
    (hop : opField c = m.opcode) (hne : c ≠ m.matchBits) (wdata : Word) (s : State) :
    step (s.present ⟨c, wdata⟩) = .next (s.answer .illegalCommand 0) := by
  have hno : ∀ m' : Mnemonic, ¬ c &&& m'.mask = m'.matchBits := by
    intro m' hm'
    have hop' := ((m'.matches_iff_fields c).mp hm').1
    obtain rfl := Mnemonic.opcode_injective (hop.symm.trans hop')
    rw [hmask, BitVec.and_allOnes] at hm'
    exact hne hm'
  obtain ⟨e, he⟩ := (decodeWord_eq_error_iff c).mpr hno
  exact step_of_illegal (s.present_inputs _) ((decode_eq_error_iff _ e).mpr he)

end Sys2Proof
end

section
/-! SUPPORT. The host commands on `H`: LDIV, WRH, RDH (43_state_accumulator.md R131 to R133). -/

namespace Sys2Proof.Machine

theorem exec_ldiv (s : State) : exec .ldiv s = .next ((s.loadH iv).answer .ok 0) := rfl

theorem exec_wrh {idx : Index} (hi : idx.toNat < 8) (data : Word) (s : State) :
    exec (.wrh idx data) s = .next ((s.writeH ⟨idx.toNat, hi⟩ data).answer .ok 0) := by
  simp only [exec, execWrh, stateIndex, elementOf_of_lt hi, respond_eq]

theorem exec_rdh {idx : Index} (hi : idx.toNat < 8) (s : State) :
    exec (.rdh idx) s = .next (s.answer .ok s.h[idx.toNat]) := by
  simp only [exec, execRdh, stateIndex, elementOf_of_lt hi, respond_eq, State.readH_eq, Fin.getElem_fin]

theorem State.writeH_getElem (s : State) (i k : Fin 8) (v : Word) :
    (s.writeH i v).h[k] = if k.val = i.val then v else s.h[k] := by
  simp only [State.writeH_h, Fin.getElem_fin, Vector.getElem_set, eq_comm]

/-- Settles O1: LDIV's row fixes every bit of the word, and LDIV loads the table `iv`. -/
theorem ldivLoadsTheInitialValues : Obligations.LdivLoadsTheInitialValues :=
  ⟨decode_matchBits .ldiv,
    fun _ wdata s hop hne => step_present_of_ne_matchBits (m := .ldiv) rfl hop hne wdata s,
    fun s => ⟨_, exec_ldiv s, rfl, rfl, rfl, rfl, rfl⟩⟩

/-- Settles O2: WRH's words are the row's words for an index, legal up to 7, and WRH is the write of one word of `H`. -/
theorem wrhWritesOneStateWord : Obligations.WrhWritesOneStateWord :=
  ⟨fun _ wdata hle => decode_matchBits_or_index (m := .wrh) hle wdata,
    fun _ wdata s hlt => step_present_matchBits_or_index (m := .wrh) hlt wdata s,
    fun _ data s hle => ⟨_, exec_wrh (Nat.lt_succ_of_le hle) data s, fun k => s.writeH_getElem _ k data,
      rfl, rfl, rfl, rfl⟩⟩

/-- Settles O3: RDH's words are the row's words for an index, legal up to 7, and RDH only answers. -/
theorem rdhReadsOneStateWord : Obligations.RdhReadsOneStateWord :=
  ⟨fun _ wdata hle => decode_matchBits_or_index (m := .rdh) hle wdata,
    fun _ wdata s hlt => step_present_matchBits_or_index (m := .rdh) hlt wdata s,
    fun _ s hi => ⟨_, exec_rdh hi s, ⟨rfl, rfl, rfl⟩, rfl, rfl⟩⟩

end Sys2Proof.Machine
end

section
/-! SUPPORT. The block buffer's commands WRB and STAT, and the pure function `compressFn` (44_command_sequencer.md R150,
R154, R155). -/

namespace Sys2Proof.Machine

theorem exec_wrb {idx : Index} (hi : idx.toNat < 16) (data : Word) (s : State) :
    exec (.wrb idx data) s = .next ((s.writeB ⟨idx.toNat, hi⟩ data).answer .ok 0) := by
  simp only [exec, execWrb, blockIndex, elementOf_of_lt hi, respond_eq]

theorem exec_stat (s : State) : exec .stat s = .next (s.answer .ok (statWord s.bv)) := rfl

theorem State.writeB_getElem (s : State) (j k : Fin 16) (v : Word) :
    (s.writeB j v).b[k] = if k.val = j.val then some v else s.b[k] := by
  simp only [State.writeB_b, Fin.getElem_fin, Vector.getElem_set, eq_comm]

theorem State.writeB_getLsbD (s : State) (j k : Fin 16) (v : Word) :
    (s.writeB j v).bv.getLsbD k.val = (decide (k.val = j.val) || s.bv.getLsbD k.val) := by
  simp only [State.writeB_bv, setValid_getLsbD, Fin.ext_iff]

/-- Settles O4: WRB's words are the row's words for an index, legal up to 15, and WRB is the write of one word of `B` with
its mask bit. -/
theorem wrbWritesOneBlockWordAndItsMaskBit : Obligations.WrbWritesOneBlockWordAndItsMaskBit :=
  ⟨fun _ wdata hle => decode_matchBits_or_index (m := .wrb) hle wdata,
    fun _ wdata s hlt => step_present_matchBits_or_index (m := .wrb) hlt wdata s,
    fun _ data s hle => ⟨_, exec_wrb (Nat.lt_succ_of_le hle) data s, fun k => s.writeB_getElem _ k data,
      fun k => s.writeB_getLsbD _ k data, rfl, rfl, rfl⟩⟩

/-- Settles O6: STAT's row fixes every bit of the word, and STAT only answers, with the bits of `BV`. -/
theorem statReadsTheMask : Obligations.StatReadsTheMask :=
  ⟨decode_matchBits .stat,
    fun _ wdata s hop hne => step_present_of_ne_matchBits (m := .stat) rfl hop hne wdata s,
    fun s => ⟨_, _, exec_stat s, ⟨rfl, rfl, rfl⟩, rfl, rfl, rfl, fun k => statWord_getLsbD s.bv k.val,
      fun k hk => (statWord_getLsbD s.bv k).trans (BitVec.getLsbD_of_ge s.bv k hk)⟩⟩

/-- Settles O43: `compressFn` is the fold of the words that `rounds` gives on the schedule. -/
theorem compressFnIsScheduleRoundsAndFold : Obligations.CompressFnIsScheduleRoundsAndFold :=
  fun s b => ⟨sched b, rounds s (sched b), rfl, rfl, foldWords_getElem s (rounds s (sched b))⟩

end Sys2Proof.Machine
end

section
/-! SUPPORT. COMPRESS and the reference order of its micro-operations (44_command_sequencer.md R151, R152). -/

namespace Sys2Proof.Machine

theorem runMicroOps_append_of_ok {ms : List MicroOp} {s s' : State} {x x' : Transient}
    (h : runMicroOps ms s x = .ok (s', x')) (ms' : List MicroOp) :
    runMicroOps (ms ++ ms') s x = runMicroOps ms' s' x' := by
  induction ms generalizing s x with
  | nil => cases h; rfl
  | cons m ms ih =>
    cases hm : m.run s x with
    | ok p =>
      rw [runMicroOps_cons_of_ok hm] at h
      rw [List.cons_append, runMicroOps_cons_of_ok hm, ih h]
    | error f => simp only [runMicroOps, hm, reduceCtorEq] at h

/-- The reference order in its three parts: the schedule, the rounds, FOLD (R152). -/
theorem referenceOrder_eq : referenceOrder =
    .sload :: ((List.finRange 64).drop 16).map .sexp ++ (.winit :: (List.finRange 64).map .round ++ [.fold]) := by
  simp only [referenceOrder, List.append_assoc, List.cons_append, List.nil_append]

/-- On a block whose words hold values the micro-operations compute `compressFn` (R154), from any transient state. -/
theorem runMicroOps_referenceOrder {s : State} {w : Vector Word 16} (hb : ∀ j : Fin 16, s.b[j] = some w[j])
    (x : Transient) : ∃ x', runMicroOps referenceOrder s x = .ok (s.loadH (compressFn s.h w), x') := by
  obtain ⟨-, -, hmicro⟩ := schedIsWhatTheScheduleMicroOpsCompute w
  obtain ⟨x', hsched, -, hw⟩ := hmicro s x hb
  have hrounds := runMicroOps_winit_rounds s hw (List.finRange 64)
  exact ⟨_, calc
    runMicroOps referenceOrder s x
    _ = runMicroOps (.winit :: (List.finRange 64).map .round ++ [.fold]) s x' := by
      rw [referenceOrder_eq, runMicroOps_append_of_ok hsched]
    _ = runMicroOps [.fold] s { x' with wr := _ } := runMicroOps_append_of_ok hrounds _
    _ = .ok (s.loadH (compressFn s.h w), _) := runMicroOps_cons_of_ok (fold_run s rfl) []⟩

theorem exec_compress_of_ne {s : State} (h : s.bv ≠ 0xffff) :
    exec .compress s = .next (s.answer .invalidArgument 0) := by
  simp only [exec, execCompress, allValid_of_ne h, Bool.false_eq_true, if_false, raise_eq]

theorem exec_compress {s : State} {w : Vector Word 16} (hbv : s.bv = 0xffff)
    (hb : ∀ j : Fin 16, s.b[j] = some w[j]) :
    exec .compress s = .next ((s.loadH (compressFn s.h w)).consumeBlock.answer .ok 0) := by
  obtain ⟨x', hrun⟩ := runMicroOps_referenceOrder hb Transient.empty
  simp only [exec, execCompress, (allValid_iff s.bv).mpr hbv, if_true, hrun, respond_eq]

theorem State.consumeBlock_getElem (s : State) (j : Fin 16) : s.consumeBlock.b[j] = none := by
  simp only [State.consumeBlock_b, Fin.getElem_fin, Vector.getElem_replicate]

/-- Settles O5: COMPRESS's row fixes every bit of the word, and the micro-operations of the reference order compute
`compressFn`. -/
theorem compressRefinesTheCompressionFunction : Obligations.CompressRefinesTheCompressionFunction :=
  ⟨decode_matchBits .compress,
    fun _ wdata s hop hne => step_present_of_ne_matchBits (m := .compress) rfl hop hne wdata s,
    fun _ hne => ⟨_, exec_compress_of_ne hne, ⟨rfl, rfl, rfl⟩, rfl, rfl⟩,
    fun s w hbv hb => ⟨_, exec_compress hbv hb, rfl, (s.loadH (compressFn s.h w)).consumeBlock_getElem,
      rfl, rfl, rfl⟩⟩

end Sys2Proof.Machine
end

section
/-! SUPPORT. The operations of a hashing context, case by case (45_streaming_host.md R172 to R177, R183). -/

namespace Sys2Proof.Machine

theorem withinBound_iff (bitlen : BitVec 64) (n : Nat) :
    withinBound bitlen n = true ↔ bitlen.toNat + 8 * n < 2 ^ 64 :=
  decide_eq_true_iff

theorem HasherContext.update_of_finalized {ctx : HasherContext} (h : ctx.phase = .finalized) (bytes : List Byte) :
    ctx.update bytes = .error .invalidState :=
  if_pos h

theorem HasherContext.update_of_inside_bound {ctx : HasherContext} {bytes : List Byte} (h : ctx.phase ≠ .finalized)
    (hlt : ctx.bitlen.toNat + 8 * bytes.length < 2 ^ 64) :
    ctx.update bytes = .ok
      { state := (absorb ctx.state (ctx.buf ++ bytes)).1, buf := (absorb ctx.state (ctx.buf ++ bytes)).2
        bitlen := ctx.bitlen + BitVec.ofNat 64 (8 * bytes.length), phase := .absorbing } :=
  (if_neg h).trans (if_pos ((withinBound_iff _ _).mpr hlt))

theorem HasherContext.update_of_past_bound {ctx : HasherContext} {bytes : List Byte} (h : ctx.phase ≠ .finalized)
    (hle : 2 ^ 64 ≤ ctx.bitlen.toNat + 8 * bytes.length) : ctx.update bytes = .error .lengthBound :=
  (if_neg h).trans (if_neg fun hin => Nat.not_lt.mpr hle ((withinBound_iff _ _).mp hin))

theorem HasherContext.finalize_of_finalized {ctx : HasherContext} (h : ctx.phase = .finalized) :
    ctx.finalize = .error .invalidState :=
  if_pos h

theorem HasherContext.finalize_of_ne_finalized {ctx : HasherContext} (h : ctx.phase ≠ .finalized) :
    ctx.finalize = .ok
      ({ ctx with state := (absorb ctx.state (ctx.buf ++ pad ctx.buf.length ctx.bitlen)).1, buf := [],
                  phase := .finalized },
        digestBytes (absorb ctx.state (ctx.buf ++ pad ctx.buf.length ctx.bitlen)).1) :=
  if_neg h

theorem sha256_of_inside_bound {msg : List Byte} (h : 8 * msg.length < 2 ^ 64) :
    sha256 msg = .ok (digestBytes (absorb iv (paddedMessage msg)).1) :=
  if_pos ((withinBound_iff 0 _).mpr (by simpa using h))

theorem HasherContext.reset_eq_new (ctx : HasherContext) : ctx.reset = HasherContext.new := rfl

/-- The sum of the counter and the bits of an update inside the bound is the sum of the numbers (R183). -/
theorem toNat_add_ofNat_of_inside_bound {bitlen : BitVec 64} {n : Nat} (h : bitlen.toNat + 8 * n < 2 ^ 64) :
    (bitlen + BitVec.ofNat 64 (8 * n)).toNat = bitlen.toNat + 8 * n := by
  rw [BitVec.toNat_add, BitVec.toNat_ofNat, Nat.add_mod_mod, Nat.mod_eq_of_lt h]

/-- Settles O52: each entry of the table is a case of `update` or `finalize`, and padding the empty buffer of a new
context is padding the empty message. -/
theorem lifecycleFollowsTheTable : Obligations.LifecycleFollowsTheTable := by
  have hempty : sha256 [] = .ok (digestBytes (absorb iv (paddedMessage [])).1) := sha256_of_inside_bound (by decide)
  have hnew := HasherContext.finalize_of_ne_finalized (ctx := HasherContext.new) (by decide)
  exact ⟨rfl, fun _ _ hne hlt => ⟨_, HasherContext.update_of_inside_bound hne hlt, rfl⟩,
    fun _ hne => ⟨_, _, HasherContext.finalize_of_ne_finalized hne, rfl⟩,
    fun _ bytes hfin => ⟨HasherContext.update_of_finalized hfin bytes, HasherContext.finalize_of_finalized hfin⟩,
    ⟨_, _, hnew, hempty⟩, fun _ => rfl⟩

/-- Settles O54: past the bound `update` is refused, so a successful one was inside it and its sum did not wrap. -/
theorem counterNeverWraps : Obligations.CounterNeverWraps := by
  intro ctx bytes hne
  refine ⟨HasherContext.update_of_past_bound hne, fun ctx' hok => ?_⟩
  rcases Nat.lt_or_ge (ctx.bitlen.toNat + 8 * bytes.length) (2 ^ 64) with hlt | hge
  · obtain rfl := Except.ok.inj ((HasherContext.update_of_inside_bound hne hlt).symm.trans hok)
    exact toNat_add_ofNat_of_inside_bound hlt
  · rw [HasherContext.update_of_past_bound hne hge] at hok
    cases hok

end Sys2Proof.Machine
end

section
/-! SUPPORT. The bytes of a digest (45_streaming_host.md R178). -/

namespace Sys2Proof.Machine

/-- Where every element gives `n` entries, entry `n * i + k` of the whole is entry `k` of element `i`. -/
theorem getElem?_flatMap_of_length_eq {α β : Type} {f : α → List β} {n k : Nat} (hlen : ∀ a, (f a).length = n)
    (hk : k < n) (l : List α) (i : Nat) : (l.flatMap f)[n * i + k]? = l[i]?.bind fun a => (f a)[k]? := by
  induction l generalizing i with
  | nil => rfl
  | cons a l ih =>
    rw [List.flatMap_cons]
    cases i with
    | zero => simp [List.getElem?_append_left, hlen, hk]
    | succ i =>
      have hpos : n * (i + 1) + k = (f a).length + (n * i + k) := by rw [hlen, Nat.mul_succ]; omega
      rw [hpos, List.getElem?_append_right (Nat.le_add_right _ _), Nat.add_sub_cancel_left, ih, List.getElem?_cons_succ]

theorem length_wordBytes (v : Word) : (wordBytes v).length = 4 := rfl

theorem wordBytes_getElem? (v : Word) : ∀ k : Fin 4, (wordBytes v)[k.val]? = some (v.extractLsb' (24 - 8 * k.val) 8)
  | 0 | 1 | 2 | 3 => rfl

theorem length_digestBytes (s : Vector Word 8) : (digestBytes s).length = 32 := by
  simp [digestBytes, List.length_flatMap, length_wordBytes]

/-- Settles O50: each word gives four bytes, so byte `4i + k` of the digest is byte `k` of word `i`. -/
theorem digestBytesAreBigEndian : Obligations.DigestBytesAreBigEndian := by
  refine fun s => ⟨length_digestBytes s, fun i k => ?_⟩
  rw [digestBytes, getElem?_flatMap_of_length_eq length_wordBytes k.isLt, Vector.getElem?_toList,
    Vector.getElem?_eq_getElem i.isLt]
  exact wordBytes_getElem? s[i] k

end Sys2Proof.Machine
end

section
/-! SUPPORT. One transaction of the host (30_encoding.md R60), and the host's reset on the engine (45_streaming_host.md
R177). -/

namespace Sys2Proof.Machine

theorem step_present_of_decode {c : Command} {i : Instr} (h : decode c = .ok i) (s : State) :
    step (s.present c) = exec i s := by
  simp only [step, State.takeInput_present, h]

/-- A command that its word decodes to and that is answered `OK` completes. -/
theorem transact_of_exec {i : Instr} {s t : State} {v : Word} (hd : decode (encode i) = .ok i)
    (hx : exec i s = .next (t.answer .ok v)) : transact i s = .ok (t.answer .ok v) := by
  simp only [transact, step_present_of_decode hd, hx, State.answer_responses, List.getLast?_append_cons,
    List.getLast?_singleton, if_true]

theorem issue_cons_of_ok {i : Instr} {s s' : State} (h : transact i s = .ok s') (is : List Instr) :
    issue (i :: is) s = issue is s' := by
  simp only [issue, h]

theorem decode_encode_ldiv : decode (encode .ldiv) = .ok .ldiv :=
  decode_wordOf (m := .ldiv) (idx := 0) (Nat.zero_le _) 0

/-- LDIV always completes, with the initial values in `H`. -/
theorem driveReset_eq (s : State) :
    driveReset s = .ok ({ buf := [], bitlen := 0, phase := .ready }, (s.loadH iv).answer .ok 0) := by
  have hissue : issue [.ldiv] s = .ok ((s.loadH iv).answer .ok 0) :=
    issue_cons_of_ok (transact_of_exec decode_encode_ldiv (exec_ldiv s)) []
  simp only [driveReset, hissue]

/-- Settles O53: `reset` does not look at the context, and on the engine it is the load of `iv` into `H`. -/
theorem hostResetGivesANewContext : Obligations.HostResetGivesANewContext :=
  ⟨fun ctx => ⟨ctx.reset_eq_new, rfl, rfl, rfl, rfl⟩,
    fun s => ⟨_, _, driveReset_eq s, rfl, rfl, rfl, rfl, rfl, rfl⟩⟩

end Sys2Proof.Machine
end

section
/-! SUPPORT. What a command changes on the host's side, and the status it is answered with (60_exceptions.md R190 to
R192). -/

namespace Sys2Proof

theorem wellFormed_assemble {m : Mnemonic} {idx : Index} (h : idx.toNat ≤ m.maxIndex) (wdata : Word) :
    WellFormed (assemble m idx wdata) := by
  cases m with
  | ldiv | compress | stat => rfl
  | wrh | rdh | wrb | rdk => exact decide_eq_true h

theorem wellFormed_of_decode {c : Command} {i : Instr} (h : decode c = .ok i) : WellFormed i := by
  unfold decode at h
  cases hd : decodeWord c.cmd with
  | error e => simp only [hd, reduceCtorEq] at h
  | ok p =>
    obtain ⟨hmatch, hidx⟩ := (decodeWord_eq_ok_iff c.cmd p.1 p.2).mp hd
    obtain ⟨-, -, hle⟩ := (p.1.matches_iff_fields c.cmd).mp hmatch
    simp only [hd, Except.ok.injEq] at h
    exact h ▸ wellFormed_assemble (hidx ▸ hle) c.wdata

end Sys2Proof

namespace Sys2Proof.Machine

/-! ### The micro-operations write `H` only -/

theorem MicroOp.run_eq_loadH {m : MicroOp} {s s' : State} {x x' : Transient} (h : m.run s x = .ok (s', x')) :
    ∃ v, s' = s.loadH v := by
  by_cases hm : m = .fold
  · rw [hm] at h
    cases hr : x.wr with
    | some r =>
      rw [fold_run s hr] at h
      cases h
      exact ⟨_, rfl⟩
    | none => simp [MicroOp.run, foldOp, Transient.readWorking, hr] at h
  · exact ⟨s.h, MicroOp.run_state_eq_of_ne_fold hm h⟩

theorem runMicroOps_eq_loadH {ms : List MicroOp} {s s' : State} {x x' : Transient}
    (h : runMicroOps ms s x = .ok (s', x')) : ∃ v, s' = s.loadH v := by
  induction ms generalizing s x with
  | nil => cases h; exact ⟨s'.h, rfl⟩
  | cons m ms ih =>
    cases hm : m.run s x with
    | error f => simp only [runMicroOps, hm, reduceCtorEq] at h
    | ok p =>
      rw [runMicroOps_cons_of_ok hm] at h
      obtain ⟨v, hv⟩ := MicroOp.run_eq_loadH hm
      obtain ⟨v', rfl⟩ := ih h
      exact ⟨v', by rw [hv]; rfl⟩

/-! ### The answer to a command -/

/-- What the answers of `exec` have in common: one response after the state change, `OK` except for COMPRESS on an
incomplete block and for an operand outside its range. -/
theorem exec_next_cases {i : Instr} {s t : State} (h : exec i s = .next t) :
    (∃ (u : State) (v : Word), t = u.answer .ok v ∧ u.inputs = s.inputs ∧ u.responses = s.responses ∧
      ¬ (i = .compress ∧ s.bv ≠ 0xffff)) ∨
    (i = .compress ∧ s.bv ≠ 0xffff ∧ t = s.answer .invalidArgument 0) ∨
    (¬ WellFormed i ∧ t = s.answer .illegalCommand 0) := by
  have answered {t' : State} (hx : exec i s = .next t') : t = t' := Host.Outcome.next.inj (h.symm.trans hx)
  rcases exec_cases i s with ⟨rfl, hx⟩ | ⟨_, _, _, rfl, -, hx⟩ | ⟨_, _, rfl, -, hx⟩ | ⟨_, _, _, rfl, -, hx⟩ |
    ⟨rfl, hbv, ⟨s', x, hrun, hx⟩ | ⟨f, -, hx⟩⟩ | ⟨rfl, hbv, hx⟩ | ⟨rfl, hx⟩ | ⟨_, _, rfl, -, hx⟩ | ⟨hwf, hx⟩
  · exact .inl ⟨_, _, answered hx, rfl, rfl, fun hcompress => nomatch hcompress.1⟩
  · exact .inl ⟨_, _, answered hx, rfl, rfl, fun hcompress => nomatch hcompress.1⟩
  · exact .inl ⟨_, _, answered hx, rfl, rfl, fun hcompress => nomatch hcompress.1⟩
  · exact .inl ⟨_, _, answered hx, rfl, rfl, fun hcompress => nomatch hcompress.1⟩
  · obtain ⟨v, rfl⟩ := runMicroOps_eq_loadH hrun
    exact .inl ⟨_, _, answered hx, rfl, rfl, fun hcompress => hcompress.2 hbv⟩
  · rw [h] at hx
    cases hx
  · exact .inr (.inl ⟨rfl, hbv, answered hx⟩)
  · exact .inl ⟨_, _, answered hx, rfl, rfl, fun hcompress => nomatch hcompress.1⟩
  · exact .inl ⟨_, _, answered hx, rfl, rfl, fun hcompress => nomatch hcompress.1⟩
  · exact .inr (.inr ⟨hwf, answered hx⟩)

theorem step_of_decode {s : State} {c : Command} {rest : List HostInput} {i : Instr}
    (h : s.inputs = .command c :: rest) (hd : decode c = .ok i) : step s = exec i { s with inputs := rest } := by
  simp only [step, takeInput_eq_some.mpr ⟨rest, h, rfl⟩, hd]

/-- Settles O24: the decoder answers with well-formed instructions only, so the third case of `exec_next_cases` does not
arise and status 3 is left to the words that do not decode. -/
theorem eachStatusHasItsCause : Obligations.EachStatusHasItsCause := by
  refine ⟨⟨rfl, rfl, rfl, rfl⟩, fun s t c hnext hstep => ?_⟩
  obtain ⟨rest, hin⟩ := List.head?_eq_some_iff.mp hnext
  have htail : rest = s.inputs.tail := by rw [hin, List.tail_cons]
  cases hd : decode c with
  | error e =>
    rw [step_of_illegal hin hd] at hstep
    cases hstep
    exact ⟨⟨.illegalCommand, 0⟩, rfl, htail, by simp, by simp, by simp⟩
  | ok i =>
    rw [step_of_decode hin hd] at hstep
    rcases exec_next_cases hstep with ⟨u, v, rfl, hinputs, hresponses, hno⟩ | ⟨rfl, hbv, rfl⟩ | ⟨hwf, -⟩
    · exact ⟨⟨.ok, v⟩, by simp [hresponses], by simp [hinputs, htail], by simpa using hno, by simp, by simp⟩
    · exact ⟨⟨.invalidArgument, 0⟩, rfl, htail, by simpa using hbv, by simp, by simp⟩
    · exact absurd (wellFormed_of_decode hd) hwf

end Sys2Proof.Machine
end

section
/-! SUPPORT. Decoding and encoding are inverse to each other (30_encoding.md R64 to R68). -/

namespace Sys2Proof

open Sys2Proof.Machine

theorem wellFormed_iff_index_le (i : Instr) : WellFormed i ↔ i.index.toNat ≤ i.mnemonic.maxIndex := by
  cases i with
  | ldiv | compress | stat => exact iff_of_true rfl (Nat.zero_le _)
  | wrh | rdh | wrb | rdk => exact decide_eq_true_iff

/-- An instruction is assembled from its own row, index and data. -/
theorem assemble_mnemonic_index_data (i : Instr) : assemble i.mnemonic i.index i.data = i := by
  cases i <;> rfl

theorem mnemonic_assemble (m : Mnemonic) (idx : Index) (wdata : Word) : (assemble m idx wdata).mnemonic = m := by
  cases m <;> rfl

/-- A legal index is not lost: the rows without an index operand have 0 as their only legal index (R66). -/
theorem index_assemble {m : Mnemonic} {idx : Index} (h : idx.toNat ≤ m.maxIndex) (wdata : Word) :
    (assemble m idx wdata).index = idx := by
  cases m with
  | ldiv | compress | stat => exact (BitVec.eq_of_toNat_eq (Nat.le_zero.mp h)).symm
  | wrh | rdh | wrb | rdk => rfl

theorem data_assemble {m : Mnemonic} (h : m.format = .id) (idx : Index) (wdata : Word) :
    (assemble m idx wdata).data = wdata := by
  cases m with
  | wrh | wrb => rfl
  | ldiv | rdh | compress | stat | rdk => cases h

theorem encode_cmd_eq_wordOf (i : Instr) : (encode i).cmd = i.mnemonic.wordOf i.index := rfl

theorem decode_encode {i : Instr} (h : WellFormed i) : decode (encode i) = .ok i :=
  calc
    decode (encode i) = .ok (assemble i.mnemonic i.index i.data) :=
      decode_wordOf ((wellFormed_iff_index_le i).mp h) i.data
    _ = .ok i := congrArg Except.ok (assemble_mnemonic_index_data i)

/-- Settles O9: the command word is the row's word for the index, which is in the row's range. -/
theorem decodeOfEncode : Obligations.DecodeOfEncode :=
  fun _ => decode_encode

/-- What a command that decodes is: the word of a row for a legal index, and the instruction assembled from both. -/
theorem exists_row_of_decode {c : Command} {i : Instr} (h : decode c = .ok i) : ∃ m : Mnemonic,
    c.cmd = m.wordOf (idxField c.cmd) ∧ (idxField c.cmd).toNat ≤ m.maxIndex ∧
      i = assemble m (idxField c.cmd) c.wdata := by
  cases hd : decodeWord c.cmd with
  | error e => simp only [decode, hd, reduceCtorEq] at h
  | ok p =>
    obtain ⟨hmatch, hidx⟩ := (decodeWord_eq_ok_iff c.cmd p.1 p.2).mp hd
    obtain ⟨hop, hz, hle⟩ := (p.1.matches_iff_fields c.cmd).mp hmatch
    simp only [decode, hd, Except.ok.injEq] at h
    refine ⟨p.1, ?_, hle, hidx ▸ h.symm⟩
    rw [Mnemonic.wordOf, ← hop, ← hz, append_fields_eq]

/-- Settles O10: the word's row and index are those of the instruction assembled from them. -/
theorem encodeOfDecode : Obligations.EncodeOfDecode := by
  intro c i h
  refine ⟨wellFormed_of_decode h, ?_⟩
  obtain ⟨m, hword, hle, rfl⟩ := exists_row_of_decode h
  rw [encode_cmd_eq_wordOf, mnemonic_assemble, index_assemble hle]
  exact ⟨hword.symm, fun hformat => data_assemble hformat _ _⟩

/-- Settles O15: each word is its row's word for its index. -/
theorem sampleWordsDecodeAsTheSpecSays : Obligations.SampleWordsDecodeAsTheSpecSays :=
  ⟨decode_wordOf (m := .wrh) (idx := 7) (by decide) _, decode_wordOf (m := .rdh) (idx := 7) (by decide) _,
    decode_wordOf (m := .wrb) (idx := 15) (by decide) _, decode_wordOf (m := .rdk) (idx := 63) (by decide) _⟩

end Sys2Proof
end

section
/-! SUPPORT. What a step does to the engine, case by case (30_encoding.md R60, 10_state.md R20 to R25,
70_reset_and_hazards.md R215). -/

namespace Sys2Proof.Machine

/-! ### One step, by the next input -/

/-- Settles O16: a step decodes the next input and executes what it decodes to. -/
theorem stepRunsTheDecodedInstruction : Obligations.StepRunsTheDecodedInstruction :=
  fun _ _ _ _ hin hd _ => step_of_decode hin hd

/-- Settles O17: the reset event loads the three reset values, which do not depend on the state before. -/
theorem resetEventGivesTheResetState : Obligations.ResetEventGivesTheResetState :=
  fun _ _ hin => ⟨_, step_of_resetEvent hin, ⟨rfl, rfl, rfl⟩, rfl, rfl, fun j => Vector.getElem_replicate j.isLt⟩

/-- Settles O18: the reset event writes `H`, `B` and `BV` only. -/
theorem resetEventGivesNoResponse : Obligations.ResetEventGivesNoResponse :=
  fun _ _ hin => ⟨_, step_of_resetEvent hin, rfl, rfl⟩

/-- Settles O19: with nothing to take the step is the identity. -/
theorem idleEngineHoldsItsState : Obligations.IdleEngineHoldsItsState :=
  fun _ => step_of_inputs_nil

/-- Everything a step that answers a next state can be. -/
theorem step_next_cases {s t : State} (h : step s = .next t) :
    (s.inputs = [] ∧ t = s) ∨
    (∃ rest, s.inputs = .resetEvent :: rest ∧ t = State.resetEvent { s with inputs := rest }) ∨
    ∃ c rest, s.inputs = .command c :: rest ∧
      ((∃ e, decode c = .error e ∧ t = State.answer { s with inputs := rest } .illegalCommand 0) ∨
       ∃ i, decode c = .ok i ∧ exec i { s with inputs := rest } = .next t) := by
  have next_eq {t' : State} (ht : step s = .next t') : t = t' := Host.Outcome.next.inj (h.symm.trans ht)
  cases hin : s.inputs with
  | nil => exact .inl ⟨rfl, next_eq (step_of_inputs_nil hin)⟩
  | cons inp rest =>
    cases inp with
    | resetEvent => exact .inr (.inl ⟨rest, rfl, next_eq (step_of_resetEvent hin)⟩)
    | command c =>
      refine .inr (.inr ⟨c, rest, rfl, ?_⟩)
      cases hd : decode c with
      | error e => exact .inl ⟨e, rfl, next_eq (step_of_illegal hin hd)⟩
      | ok i => exact .inr ⟨i, rfl, (step_of_decode hin hd).symm.trans h⟩

/-! ### The effect of an instruction and of a step on `H`, `B` and `BV` -/

/-- What an instruction that is answered does to the engine: nothing, or the writes of LDIV, WRH, WRB or a successful
COMPRESS. -/
theorem exec_effect {i : Instr} {s t : State} (h : exec i s = .next t) :
    s.SameEngine t ∨
    (i = .ldiv ∧ t.h = iv ∧ t.b = s.b ∧ t.bv = s.bv) ∨
    (∃ idx data, i = .wrh idx data ∧ t.b = s.b ∧ t.bv = s.bv) ∨
    (∃ idx data j, i = .wrb idx data ∧ idx.toNat = j.val ∧ t.h = s.h ∧ t.b = (s.writeB j data).b ∧
      t.bv = (s.writeB j data).bv) ∨
    (i = .compress ∧ s.bv = 0xffff ∧ t.b = Vector.replicate 16 none ∧ t.bv = 0) := by
  have next_eq {t' : State} (hx : exec i s = .next t') : t = t' := Host.Outcome.next.inj (h.symm.trans hx)
  rcases exec_cases i s with ⟨rfl, hx⟩ | ⟨idx, data, k, rfl, -, hx⟩ | ⟨idx, k, rfl, -, hx⟩ |
    ⟨idx, data, j, rfl, hj, hx⟩ | ⟨rfl, hbv, ⟨s', x, hrun, hx⟩ | ⟨f, -, hx⟩⟩ | ⟨rfl, hbv, hx⟩ | ⟨rfl, hx⟩ |
    ⟨idx, k, rfl, -, hx⟩ | ⟨hwf, hx⟩
  · rw [next_eq hx]
    exact .inr (.inl ⟨rfl, rfl, rfl, rfl⟩)
  · rw [next_eq hx]
    exact .inr (.inr (.inl ⟨idx, data, rfl, rfl, rfl⟩))
  · rw [next_eq hx]
    exact .inl ⟨rfl, rfl, rfl⟩
  · rw [next_eq hx]
    exact .inr (.inr (.inr (.inl ⟨idx, data, j, rfl, elementOf_eq_some.mp hj, rfl, rfl, rfl⟩)))
  · rw [next_eq hx]
    exact .inr (.inr (.inr (.inr ⟨rfl, hbv, rfl, rfl⟩)))
  · cases h.symm.trans hx
  all_goals
    rw [next_eq hx]
    exact .inl ⟨rfl, rfl, rfl⟩

/-- What a step does to the engine. -/
theorem step_effect {s t : State} (h : step s = .next t) :
    s.SameEngine t ∨
    (s.inputs.head? = some .resetEvent ∧ State.reset.SameEngine t) ∨
    ∃ c, s.NextCommand c ∧
      ((decode c = .ok .ldiv ∧ t.b = s.b ∧ t.bv = s.bv) ∨
       (∃ idx data, decode c = .ok (.wrh idx data) ∧ t.b = s.b ∧ t.bv = s.bv) ∨
       (∃ idx data j, decode c = .ok (.wrb idx data) ∧ idx.toNat = j.val ∧ t.h = s.h ∧
         t.b = (s.writeB j data).b ∧ t.bv = (s.writeB j data).bv) ∨
       (decode c = .ok .compress ∧ s.bv = 0xffff ∧ t.b = Vector.replicate 16 none ∧ t.bv = 0)) := by
  rcases step_next_cases h with ⟨-, rfl⟩ | ⟨rest, hin, rfl⟩ | ⟨c, rest, hin, ⟨e, -, rfl⟩ | ⟨i, hd, hx⟩⟩
  · exact .inl ⟨rfl, rfl, rfl⟩
  · exact .inr (.inl ⟨congrArg List.head? hin, rfl, rfl, rfl⟩)
  · exact .inl ⟨rfl, rfl, rfl⟩
  · have hnext : s.NextCommand c := congrArg List.head? hin
    rcases exec_effect hx with hsame | ⟨rfl, -, hkeep⟩ | ⟨idx, data, rfl, hkeep⟩ | ⟨idx, data, j, rfl, hwrb⟩ |
      ⟨rfl, hcompress⟩
    · exact .inl hsame
    · exact .inr (.inr ⟨c, hnext, .inl ⟨hd, hkeep⟩⟩)
    · exact .inr (.inr ⟨c, hnext, .inr (.inl ⟨idx, data, hd, hkeep⟩)⟩)
    · exact .inr (.inr ⟨c, hnext, .inr (.inr (.inl ⟨idx, data, j, hd, hwrb⟩))⟩)
    · exact .inr (.inr ⟨c, hnext, .inr (.inr (.inr ⟨hd, hcompress⟩))⟩)

/-- Settles O26: of the effects of a step only four leave another `H`. -/
theorem onlyFourThingsChangeH : Obligations.OnlyFourThingsChangeH := by
  intro s t hstep hne
  rcases step_effect hstep with ⟨hh, -, -⟩ | ⟨hreset, -⟩ | ⟨c, hnext, ⟨hd, -⟩ | ⟨idx, data, hd, -⟩ |
    ⟨-, -, -, -, -, hh, -, -⟩ | ⟨hd, hbv, -⟩⟩
  · exact absurd hh hne
  · exact .inl hreset
  · exact .inr ⟨c, hnext, .inl hd⟩
  · exact .inr ⟨c, hnext, .inr (.inl ⟨idx, data, hd⟩)⟩
  · exact absurd hh hne
  · exact .inr ⟨c, hnext, .inr (.inr ⟨hd, hbv⟩)⟩

/-- Settles O27: the effects of a step on `BV` are those of the reset event, of WRB and of a successful COMPRESS. -/
theorem maskChangesOnlyByWrbCompressAndReset : Obligations.MaskChangesOnlyByWrbCompressAndReset := by
  intro s t hstep
  rcases step_effect hstep with ⟨-, -, hbv⟩ | ⟨hreset, -, -, hbv⟩ | ⟨c, hnext, ⟨-, -, hbv⟩ | ⟨-, -, -, -, hbv⟩ |
    ⟨idx, data, j, hd, hj, -, -, hbv⟩ | ⟨hd, hfull, -, hbv⟩⟩
  · exact .inl hbv
  · exact .inr (.inl ⟨hreset, hbv⟩)
  · exact .inl hbv
  · exact .inl hbv
  · exact .inr (.inr ⟨c, hnext, .inr ⟨idx, data, hd, fun k => by rw [hbv, s.writeB_getLsbD, hj]⟩⟩)
  · exact .inr (.inr ⟨c, hnext, .inl ⟨hd, hfull, hbv⟩⟩)

/-! ### The invariant on `B` and `BV` (10_state.md R34 d) -/

theorem State.Coherent.of_eq {s t : State} (h : s.Coherent) (hb : t.b = s.b) (hbv : t.bv = s.bv) : t.Coherent := by
  intro j
  rw [hb, hbv]
  exact h j

theorem State.coherent_of_empty {s : State} (hb : s.b = Vector.replicate 16 none) (hbv : s.bv = 0) : s.Coherent := by
  intro j
  rw [hb, hbv, Fin.getElem_fin, Vector.getElem_replicate]
  exact BitVec.getLsbD_zero.symm

theorem State.Coherent.writeB {s : State} (h : s.Coherent) (j : Fin 16) (v : Word) : (s.writeB j v).Coherent := by
  intro k
  rw [s.writeB_getElem, s.writeB_getLsbD]
  by_cases hk : k.val = j.val
  · simp [hk]
  · simpa [hk] using h k

/-- Settles O20: a step keeps `B` and `BV`, writes one word with its bit, or empties both. -/
theorem stepKeepsTheBlockCoherent : Obligations.StepKeepsTheBlockCoherent := by
  intro s t hco hstep
  rcases step_effect hstep with ⟨-, hb, hbv⟩ | ⟨-, -, hb, hbv⟩ | ⟨c, -, ⟨-, hb, hbv⟩ | ⟨-, -, -, hb, hbv⟩ |
    ⟨-, data, j, -, -, -, hb, hbv⟩ | ⟨-, -, hb, hbv⟩⟩
  · exact hco.of_eq hb hbv
  · exact State.coherent_of_empty hb hbv
  · exact hco.of_eq hb hbv
  · exact hco.of_eq hb hbv
  · exact (hco.writeB j data).of_eq hb hbv
  · exact State.coherent_of_empty hb hbv

/-- Settles O21: at reset no block word holds a value and no response has been returned. -/
theorem resetStateIsCoherent : Obligations.ResetStateIsCoherent :=
  ⟨State.coherent_of_empty rfl rfl, List.forall_mem_nil _⟩

/-- In a coherent state with a full mask all sixteen block words hold values. -/
theorem State.Coherent.exists_blockWords {s : State} (h : s.Coherent) (hbv : s.bv = 0xffff) :
    ∃ w : Vector Word 16, ∀ j : Fin 16, s.b[j] = some w[j] := by
  have hsome (j : Fin 16) : (s.b[j]).isSome := by
    have hbit : ∀ k : Fin 16, (0xffff : BitVec 16).getLsbD k.val = true := by decide
    rw [h j, hbv, hbit]
  refine ⟨Vector.ofFn fun j => (s.b[j]).get (hsome j), fun j => ?_⟩
  rw [Fin.getElem_fin (Vector.ofFn _), Vector.getElem_ofFn]
  exact (Option.some_get (hsome j)).symm

/-- The only instruction that can fault is COMPRESS, and it does not in a coherent state. -/
theorem exists_exec_of_coherent {s : State} (h : s.Coherent) (i : Instr) : ∃ t, exec i s = .next t := by
  rcases exec_cases i s with ⟨_, hx⟩ | ⟨_, _, _, _, _, hx⟩ | ⟨_, _, _, _, hx⟩ | ⟨_, _, _, _, _, hx⟩ |
    ⟨rfl, hbv, _⟩ | ⟨_, _, hx⟩ | ⟨_, hx⟩ | ⟨_, _, _, _, hx⟩ | ⟨_, hx⟩
  any_goals exact ⟨_, hx⟩
  obtain ⟨w, hw⟩ := h.exists_blockWords hbv
  exact ⟨_, exec_compress hbv hw⟩

/-- Settles O22: idle steps, reset events and illegal words always have a next state, and so has an instruction in a
coherent state. -/
theorem coherentStatesAlwaysStep : Obligations.CoherentStatesAlwaysStep := by
  intro s hco
  cases hin : s.inputs with
  | nil => exact ⟨_, step_of_inputs_nil hin⟩
  | cons inp rest =>
    cases inp with
    | resetEvent => exact ⟨_, step_of_resetEvent hin⟩
    | command c =>
      cases hd : decode c with
      | error e => exact ⟨_, step_of_illegal hin hd⟩
      | ok i =>
        rw [step_of_decode hin hd]
        exact exists_exec_of_coherent (s := { s with inputs := rest }) hco i

end Sys2Proof.Machine
end

section
/-! SUPPORT. The responses of a step and of a run (30_encoding.md R60, R63; 60_exceptions.md R190 to R193). -/

namespace Sys2Proof.Machine

/-! ### Legal responses -/

theorem Response.legal_ok (v : Word) : Response.Legal ⟨.ok, v⟩ :=
  ⟨nofun, fun hne => absurd rfl hne⟩

theorem Response.legal_error {st : Status} (h : st ≠ .invalidState) : Response.Legal ⟨st, 0⟩ :=
  ⟨h, fun _ => rfl⟩

theorem responsesLegal_of_append {s t : State} {r : Response} (h : s.ResponsesLegal) (hr : r.Legal)
    (ht : t.responses = s.responses ++ [r]) : t.ResponsesLegal := by
  intro r' hr'
  rw [ht, List.mem_append, List.mem_singleton] at hr'
  rcases hr' with hold | rfl
  · exact h r' hold
  · exact hr

/-- Settles O23: a step adds no response or one that is legal, `OK` or an error with `rdata = 0`. -/
theorem stepKeepsTheResponsesLegal : Obligations.StepKeepsTheResponsesLegal := by
  intro s t hlegal hstep
  rcases step_next_cases hstep with ⟨-, rfl⟩ | ⟨rest, -, rfl⟩ | ⟨c, rest, -, ⟨e, -, rfl⟩ | ⟨i, -, hx⟩⟩
  · exact hlegal
  · exact hlegal
  · exact responsesLegal_of_append hlegal (Response.legal_error (by decide)) rfl
  · rcases exec_next_cases hx with ⟨u, v, rfl, -, hresponses, -⟩ | ⟨-, -, rfl⟩ | ⟨-, rfl⟩
    · exact responsesLegal_of_append hlegal (Response.legal_ok v) (by rw [State.answer_responses, hresponses])
    · exact responsesLegal_of_append hlegal (Response.legal_error (by decide)) rfl
    · exact responsesLegal_of_append hlegal (Response.legal_error (by decide)) rfl

/-! ### Errors -/

/-- A command that is not answered `OK` only adds its response, and adds the same one in every state with the same
mask. -/
theorem step_of_failed_command {s t : State} {c : Command} {r : Response} (hnext : s.NextCommand c)
    (hstep : step s = .next t) (hr : t.responses = s.responses ++ [r]) (hne : r.status ≠ .ok) :
    s.SameEngine t ∧ r.rdata = 0 ∧ ∀ u : State, u.bv = s.bv → step (u.present c) = .next (u.answer r.status 0) := by
  obtain ⟨rest, hin⟩ := List.head?_eq_some_iff.mp hnext
  have last_eq {r' : Response} (h : t.responses = s.responses ++ [r']) : r = r' :=
    List.singleton_inj.mp (List.append_cancel_left (hr.symm.trans h))
  cases hd : decode c with
  | error e =>
    rw [step_of_illegal hin hd] at hstep
    cases hstep
    rw [last_eq rfl]
    exact ⟨⟨rfl, rfl, rfl⟩, rfl, fun u _ => step_of_illegal (u.present_inputs c) hd⟩
  | ok i =>
    rw [step_of_decode hin hd] at hstep
    rcases exec_next_cases hstep with ⟨u, v, rfl, -, hresponses, -⟩ | ⟨rfl, hbv, rfl⟩ | ⟨hwf, -⟩
    · have hok : r = ⟨.ok, v⟩ := last_eq (by rw [State.answer_responses, hresponses])
      exact absurd (congrArg Response.status hok) hne
    · rw [last_eq rfl]
      refine ⟨⟨rfl, rfl, rfl⟩, rfl, fun u hu => ?_⟩
      rw [step_present_of_decode hd]
      exact exec_compress_of_ne (hu ▸ hbv)
    · exact absurd (wellFormed_of_decode hd) hwf

/-- Settles O25: the repeated command meets the same mask. -/
theorem errorsLeaveNoTrace : Obligations.ErrorsLeaveNoTrace := by
  intro s t c r hnext hstep hr hne
  obtain ⟨hsame, hzero, hagain⟩ := step_of_failed_command hnext hstep hr hne
  refine ⟨hsame, hzero, t.answer r.status 0, hagain t hsame.2.2, ?_, hsame⟩
  rw [State.answer_responses, ← hzero]

/-! ### A run over all inputs -/

theorem core_run_succ_of_step {s t : State} (h : step s = .next t) (n : Nat) :
    core.run (n + 1) s = core.run n t := by
  have hcore : core.step s = .next t := h
  simp only [Host.Core.run, hcore]

theorem commandCount_resetEvent_cons (inputs : List HostInput) :
    commandCount (.resetEvent :: inputs) = commandCount inputs := rfl

theorem commandCount_command_cons (c : Command) (inputs : List HostInput) :
    commandCount (.command c :: inputs) = commandCount inputs + 1 := rfl

/-- A step from a coherent state takes the next input and answers it once if it is a command. -/
theorem exists_step_of_inputs_cons {s : State} {inp : HostInput} {rest : List HostInput} (hco : s.Coherent)
    (hin : s.inputs = inp :: rest) : ∃ t, step s = .next t ∧ t.Coherent ∧ t.inputs = rest ∧
      t.responses.length + commandCount rest = s.responses.length + commandCount s.inputs ∧
      s.responses <+: t.responses := by
  obtain ⟨t, hstep⟩ := coherentStatesAlwaysStep s hco
  refine ⟨t, hstep, stepKeepsTheBlockCoherent s t hco hstep, ?_⟩
  cases inp with
  | resetEvent =>
    rw [step_of_resetEvent hin] at hstep
    cases hstep
    exact ⟨rfl, by rw [hin, commandCount_resetEvent_cons]; rfl, List.prefix_rfl⟩
  | command c =>
    obtain ⟨-, honce⟩ := eachStatusHasItsCause
    obtain ⟨r, hresponses, hinputs, -⟩ := honce s t c (congrArg List.head? hin) hstep
    refine ⟨by rw [hinputs, hin, List.tail_cons], ?_, hresponses ▸ List.prefix_append _ _⟩
    rw [hresponses, hin, commandCount_command_cons, List.length_append, List.length_singleton]
    omega

/-- Settles O28: by induction on the inputs, one step for each. -/
theorem everyCommandIsAnsweredOnce : Obligations.EveryCommandIsAnsweredOnce := by
  intro s hco
  generalize hin : s.inputs = inputs
  induction inputs generalizing s with
  | nil => exact ⟨s, rfl, hin, rfl, List.prefix_rfl⟩
  | cons inp rest ih =>
    obtain ⟨u, hstep, hcou, hrest, hcount, hprefix⟩ := exists_step_of_inputs_cons hco hin
    obtain ⟨t, hrun, hnone, hlength, hprefix'⟩ := ih u hcou hrest
    refine ⟨t, (core_run_succ_of_step hstep rest.length).trans hrun, hnone, ?_, hprefix.trans hprefix'⟩
    rw [hlength, hcount, hin]

end Sys2Proof.Machine
end

section
/-! SUPPORT. Commands done twice and in another order (20_memory.md section 3, 44_command_sequencer.md R150, R151), and
operands outside their range (log entry 11). -/

namespace Sys2Proof.Machine

theorem exec_of_not_wellFormed {i : Instr} (h : ¬ WellFormed i) (s : State) :
    exec i s = .next (s.answer .illegalCommand 0) := by
  have out_of_range {idx : Index} {n : Nat} (hn : ¬ decide (idx.toNat ≤ n) = true) :
      elementOf (n + 1) idx = none :=
    elementOf_of_le (Nat.lt_of_not_le (mt decide_eq_true hn))
  cases i with
  | ldiv | compress | stat => exact absurd rfl h
  | wrh idx data => simp only [exec, execWrh, stateIndex, out_of_range h, execIllegal_eq]
  | rdh idx => simp only [exec, execRdh, stateIndex, out_of_range h, execIllegal_eq]
  | wrb idx data => simp only [exec, execWrb, blockIndex, out_of_range h, execIllegal_eq]
  | rdk idx => simp only [exec, execRdk, romIndex, out_of_range h, execIllegal_eq]

/-- Settles O8: an operand outside its range names no element, and the arm for that answers as for an illegal word. -/
theorem illFormedInstructionsAreAnsweredAsIllegal : Obligations.IllFormedInstructionsAreAnsweredAsIllegal :=
  fun _ s hwf => ⟨_, exec_of_not_wellFormed hwf s, ⟨rfl, rfl, rfl⟩, rfl, rfl⟩

/-! ### Reads -/

/-- A read only answers, and what it answers depends on the engine alone. -/
theorem exists_answer_of_read {i : Instr} (hi : i.mnemonic = .rdh ∨ i.mnemonic = .rdk ∨ i.mnemonic = .stat)
    (s : State) : ∃ r : Response, ∀ u, s.SameEngine u → exec i u = .next (u.answer r.status r.rdata) := by
  by_cases hwf : WellFormed i
  · cases i with
    | rdh idx =>
      have hlt : idx.toNat < 8 := Nat.lt_succ_of_le (of_decide_eq_true hwf)
      exact ⟨⟨.ok, s.h[idx.toNat]⟩, fun u ⟨hh, _, _⟩ => by rw [exec_rdh hlt, hh]⟩
    | rdk idx =>
      have hlt : idx.toNat < 64 := Nat.lt_succ_of_le (of_decide_eq_true hwf)
      exact ⟨⟨.ok, roundConstant ⟨idx.toNat, hlt⟩⟩, fun u _ => exec_rdk hlt u⟩
    | stat => exact ⟨⟨.ok, statWord s.bv⟩, fun u ⟨_, _, hbv⟩ => by rw [exec_stat, hbv]⟩
    | ldiv | wrh | wrb | compress => simp [Instr.mnemonic] at hi
  · exact ⟨⟨.illegalCommand, 0⟩, fun u _ => exec_of_not_wellFormed hwf u⟩

/-! ### Writes -/

theorem exec_ldiv_next {s t : State} (h : exec .ldiv s = .next t) : t.h = iv ∧ t.b = s.b ∧ t.bv = s.bv := by
  rw [exec_ldiv] at h
  cases h
  exact ⟨rfl, rfl, rfl⟩

/-- WRH word by word: an index outside the range names no word, so the rule holds for it too. -/
theorem exec_wrh_next {idx : Index} {data : Word} {s t : State} (h : exec (.wrh idx data) s = .next t) :
    (∀ k : Fin 8, t.h[k] = if k.val = idx.toNat then data else s.h[k]) ∧ t.b = s.b ∧ t.bv = s.bv := by
  rcases Nat.lt_or_ge idx.toNat 8 with hlt | hge
  · rw [exec_wrh hlt] at h
    cases h
    exact ⟨fun k => s.writeH_getElem _ k data, rfl, rfl⟩
  · have hwf : ¬ WellFormed (.wrh idx data) :=
      fun hle => Nat.not_le_of_lt hge (of_decide_eq_true hle)
    rw [exec_of_not_wellFormed hwf] at h
    cases h
    exact ⟨fun k => (if_neg (by omega)).symm, rfl, rfl⟩

/-- WRB word by word and bit by bit, for every index like `exec_wrh_next`. -/
theorem exec_wrb_next {idx : Index} {data : Word} {s t : State} (h : exec (.wrb idx data) s = .next t) :
    t.h = s.h ∧ (∀ k : Fin 16, t.b[k] = if k.val = idx.toNat then some data else s.b[k]) ∧
      ∀ k : Fin 16, t.bv.getLsbD k.val = (decide (k.val = idx.toNat) || s.bv.getLsbD k.val) := by
  rcases Nat.lt_or_ge idx.toNat 16 with hlt | hge
  · rw [exec_wrb hlt] at h
    cases h
    exact ⟨rfl, fun k => s.writeB_getElem _ k data, fun k => s.writeB_getLsbD _ k data⟩
  · have hwf : ¬ WellFormed (.wrb idx data) :=
      fun hle => Nat.not_le_of_lt hge (of_decide_eq_true hle)
    have hne (k : Fin 16) : k.val ≠ idx.toNat := by omega
    rw [exec_of_not_wellFormed hwf] at h
    cases h
    exact ⟨rfl, fun k => (if_neg (hne k)).symm, fun k => by simp [hne k]⟩

/-- Engines with the same `H`, the same block words and the same mask bits are the same. -/
theorem State.sameEngine_of_getElem {s t : State} (hh : ∀ k : Fin 8, t.h[k] = s.h[k])
    (hb : ∀ k : Fin 16, t.b[k] = s.b[k]) (hbv : ∀ k : Fin 16, t.bv.getLsbD k.val = s.bv.getLsbD k.val) :
    s.SameEngine t :=
  ⟨Vector.ext fun k hk => hh ⟨k, hk⟩, Vector.ext fun k hk => hb ⟨k, hk⟩,
    BitVec.eq_of_getLsbD_eq fun k hk => hbv ⟨k, hk⟩⟩

/-- A COMPRESS on a full mask that is answered has consumed the block. -/
theorem exec_compress_next_bv {s t : State} (hbv : s.bv = 0xffff) (h : exec .compress s = .next t) : t.bv = 0 := by
  simp only [exec, execCompress, (allValid_iff s.bv).mpr hbv, if_true] at h
  cases hrun : runMicroOps referenceOrder s Transient.empty with
  | ok p =>
    simp only [hrun, respond_eq, Host.Outcome.next.injEq] at h
    rw [← h, State.answer_bv, State.consumeBlock_bv]
  | error f => simp only [hrun, reduceCtorEq] at h

/-- LDIV, WRH and WRB give the words they write a value that does not depend on the state. -/
theorem sameEngine_of_write_twice {i : Instr} {s t u : State}
    (hi : i.mnemonic = .wrh ∨ i.mnemonic = .wrb ∨ i.mnemonic = .ldiv) (hst : exec i s = .next t)
    (htu : exec i t = .next u) : t.SameEngine u := by
  cases i with
  | ldiv =>
    obtain ⟨hh, -, -⟩ := exec_ldiv_next hst
    obtain ⟨hh', hb', hbv'⟩ := exec_ldiv_next htu
    exact ⟨hh'.trans hh.symm, hb', hbv'⟩
  | wrh idx data =>
    obtain ⟨hh, -, -⟩ := exec_wrh_next hst
    obtain ⟨hh', hb', hbv'⟩ := exec_wrh_next htu
    refine State.sameEngine_of_getElem (fun k => ?_) (fun k => by rw [hb']) (fun k => by rw [hbv'])
    rw [hh', hh]; split <;> rfl
  | wrb idx data =>
    obtain ⟨-, hb, hbv⟩ := exec_wrb_next hst
    obtain ⟨hh', hb', hbv'⟩ := exec_wrb_next htu
    refine State.sameEngine_of_getElem (fun k => by rw [hh']) (fun k => ?_) (fun k => ?_)
    · rw [hb', hb]; split <;> rfl
    · rw [hbv', hbv, ← Bool.or_assoc, Bool.or_self]
  | rdh | compress | stat | rdk => simp [Instr.mnemonic] at hi

/-- Settles O29: reads repeat their answer, writes repeat their values, and a successful COMPRESS leaves `BV` at 0. -/
theorem readsAndWritesAreIdempotentAndCompressIsNot : Obligations.ReadsAndWritesAreIdempotentAndCompressIsNot := by
  refine ⟨fun i s t hi hst => ?_, fun i s t u => sameEngine_of_write_twice, fun s t hbv hst => ?_⟩
  · obtain ⟨r, hr⟩ := exists_answer_of_read hi s
    obtain rfl := Host.Outcome.next.inj (hst.symm.trans (hr s ⟨rfl, rfl, rfl⟩))
    exact ⟨⟨rfl, rfl, rfl⟩, r, hr _ ⟨rfl, rfl, rfl⟩, rfl⟩
  · have hempty : t.bv ≠ 0xffff := by rw [exec_compress_next_bv hbv hst]; decide
    exact exec_compress_of_ne hempty

/-- Settles O45: each of the two words keeps the value its own WRB gives it, whichever comes first. -/
theorem blockWritesCommute : Obligations.BlockWritesCommute := by
  intro i j v w s t1 t2 u1 u2 hne ht1 ht2 hu1 hu2
  obtain ⟨hth1, htb1, htbv1⟩ := exec_wrb_next ht1
  obtain ⟨hth2, htb2, htbv2⟩ := exec_wrb_next ht2
  obtain ⟨huh1, hub1, hubv1⟩ := exec_wrb_next hu1
  obtain ⟨huh2, hub2, hubv2⟩ := exec_wrb_next hu2
  have hdiff : i.toNat ≠ j.toNat := fun heq => hne (BitVec.eq_of_toNat_eq heq)
  refine State.sameEngine_of_getElem (fun k => by rw [huh2, huh1, hth2, hth1]) (fun k => ?_) (fun k => ?_)
  · rw [hub2, hub1, htb2, htb1]
    by_cases hki : k.val = i.toNat
    · simp [hki, hdiff]
    · simp [hki]
  · rw [hubv2, hubv1, htbv2, htbv1, Bool.or_left_comm]

end Sys2Proof.Machine
end

section
/-! SUPPORT. The origin of the constants (40_round_constants.md R80, 10_state.md R22), the register chain
(42_compression_round.md R118) and computed values of `compressFn` (44_command_sequencer.md R154). -/

namespace Sys2Proof.Machine

/-- The numbers beside the ROM's words are prime, and as many primes stand below each as rows before it. -/
theorem rom_prime_and_count : ∀ t : Fin 64, rom[t].prime.Prime ∧ Nat.count Nat.Prime rom[t].prime = t.val := by
  decide +kernel

theorem rom_prime_eq_nth (t : Fin 64) : rom[t].prime = Nat.nth Nat.Prime t.val := by
  obtain ⟨hprime, hcount⟩ := rom_prime_and_count t
  exact (Nat.nth_count hprime).symm.trans (congrArg (Nat.nth Nat.Prime) hcount)

/-- With the integer part `c` of the cube root before it, `K[t]` is the root's expansion to 32 bits. -/
theorem roundConstant_bounds : ∀ t : Fin 64, ∃ c : Fin 7,
    (c.val * 2 ^ 32 + (roundConstant t).toNat) ^ 3 ≤ rom[t].prime * 2 ^ 96 ∧
      rom[t].prime * 2 ^ 96 < (c.val * 2 ^ 32 + (roundConstant t).toNat + 1) ^ 3 := by
  decide +kernel

/-- The same for `IV[i]` and the square root, on the first eight primes of the ROM's table. -/
theorem iv_bounds : ∀ i : Fin 8, ∃ c : Fin 5,
    (c.val * 2 ^ 32 + iv[i].toNat) ^ 2 ≤ rom[i.val].prime * 2 ^ 64 ∧
      rom[i.val].prime * 2 ^ 64 < (c.val * 2 ^ 32 + iv[i].toNat + 1) ^ 2 := by
  decide +kernel

/-- A word is what is left of a number that has it as its low 32 bits. -/
theorem toNat_eq_mul_add_mod (c : Nat) (v : Word) : v.toNat = (c * 2 ^ 32 + v.toNat) % 2 ^ 32 := by
  rw [Nat.mul_add_mod_self_right, Nat.mod_eq_of_lt v.isLt]

/-- Settles O30: the number is the integer part of the root with the ROM's word below it. -/
theorem roundConstantsAreCubeRootFractions : Obligations.RoundConstantsAreCubeRootFractions := by
  intro t
  obtain ⟨c, hle, hlt⟩ := roundConstant_bounds t
  rw [← rom_prime_eq_nth t]
  exact ⟨rfl, _, hle, hlt, toNat_eq_mul_add_mod c.val _⟩

/-- Settles O31: likewise, with the word of `iv`. -/
theorem initialValuesAreSquareRootFractions : Obligations.InitialValuesAreSquareRootFractions := by
  intro i
  obtain ⟨c, hle, hlt⟩ := iv_bounds i
  have hnth : rom[i.val].prime = Nat.nth Nat.Prime i.val := rom_prime_eq_nth (i.castLE (by decide))
  rw [← hnth]
  exact ⟨_, hle, hlt, toNat_eq_mul_add_mod c.val _⟩

/-- Settles O41: a round moves six registers on by one name, so each side is the same register by definition. -/
theorem fourRoundsReplaceEveryRegister : Obligations.FourRoundsReplaceEveryRegister :=
  fun _ _ _ => rfl

/-- Settles O44: the four values are computed. -/
theorem compressFnGivesTheComputedValues : Obligations.CompressFnGivesTheComputedValues := by
  unfold Obligations.CompressFnGivesTheComputedValues
  decide +kernel

end Sys2Proof.Machine
end

section
/-! SUPPORT. The fixed command sequences on the engine, each with the state it ends in (30_encoding.md R73,
44_command_sequencer.md section 4, 70_reset_and_hazards.md R226). -/

namespace Sys2Proof.Machine

/-! ### Writing elements one by one -/

/-- `x` with the elements named in a list written over with those of `v`, one after another. -/
def writeEach {α : Type} {n : Nat} (v : Vector α n) (l : List (Fin n)) (x : Vector α n) : Vector α n :=
  l.foldl (fun x (i : Fin n) => x.set i v[i]) x

theorem writeEach_cons {α : Type} {n : Nat} (v : Vector α n) (i : Fin n) (l : List (Fin n)) (x : Vector α n) :
    writeEach v (i :: l) x = writeEach v l (x.set i v[i]) := rfl

theorem writeEach_getElem {α : Type} {n : Nat} (v : Vector α n) (l : List (Fin n)) (x : Vector α n) (k : Fin n) :
    (writeEach v l x)[k] = if k ∈ l then v[k] else x[k] := by
  induction l generalizing x with
  | nil => rfl
  | cons i l ih =>
    rw [writeEach_cons, ih]
    by_cases hl : k ∈ l
    · simp [hl]
    · by_cases hi : k = i
      · simp [hi]
      · have hne : i.val ≠ k.val := Fin.val_ne_of_ne (Ne.symm hi)
        simp [hl, hi, hne]

theorem writeEach_finRange {α : Type} {n : Nat} (v x : Vector α n) : writeEach v (List.finRange n) x = v :=
  Vector.ext fun k hk => (writeEach_getElem v _ x ⟨k, hk⟩).trans (if_pos (List.mem_finRange _))

theorem foldl_setValid_getLsbD (l : List (Fin 16)) (bv : BitVec 16) (k : Fin 16) :
    (l.foldl setValid bv).getLsbD k.val = (decide (k ∈ l) || bv.getLsbD k.val) := by
  induction l generalizing bv with
  | nil => simp
  | cons j l ih =>
    rw [List.foldl_cons, ih, setValid_getLsbD, Bool.or_left_comm, ← Bool.or_assoc, ← Bool.decide_or]
    simp only [List.mem_cons]

/-- Setting every bit of a mask fills it. -/
theorem foldl_setValid_finRange (bv : BitVec 16) : (List.finRange 16).foldl setValid bv = 0xffff := by
  have hfull : ∀ k : Fin 16, (0xffff : BitVec 16).getLsbD k.val = true := by decide
  refine BitVec.eq_of_getLsbD_eq fun k hk => ?_
  rw [foldl_setValid_getLsbD _ _ ⟨k, hk⟩, hfull ⟨k, hk⟩, decide_eq_true (List.mem_finRange _), Bool.true_or]

/-! ### One command of a sequence -/

theorem toNat_ofNat_fin {n : Nat} (hn : n ≤ 2 ^ 8) (k : Fin n) : (BitVec.ofNat 8 k.val).toNat = k.val := by
  rw [BitVec.toNat_ofNat, Nat.mod_eq_of_lt (k.isLt.trans_le hn)]

theorem elementOf_ofNat {n : Nat} (hn : n ≤ 2 ^ 8) (k : Fin n) : elementOf n (BitVec.ofNat 8 k.val) = some k :=
  elementOf_eq_some.mpr (toNat_ofNat_fin hn k)

/-- The index of an element is in range, in the form `Instr.wellFormed` checks it. -/
theorem decide_ofNat_le {n : Nat} (hn : n + 1 ≤ 2 ^ 8) (k : Fin (n + 1)) :
    decide ((BitVec.ofNat 8 k.val).toNat ≤ n) = true :=
  decide_eq_true ((toNat_ofNat_fin hn k).trans_le (Nat.le_of_lt_succ k.isLt))

theorem transact_wrh (i : Fin 8) (v : Word) (s : State) :
    transact (.wrh (BitVec.ofNat 8 i.val) v) s = .ok ((s.writeH i v).answer .ok 0) :=
  transact_of_exec (decode_encode (decide_ofNat_le (by decide) i)) (by
    simp only [exec, execWrh, stateIndex, elementOf_ofNat (by decide) i, respond_eq])

theorem transact_rdh (i : Fin 8) (s : State) :
    transact (.rdh (BitVec.ofNat 8 i.val)) s = .ok (s.answer .ok s.h[i]) :=
  transact_of_exec (decode_encode (decide_ofNat_le (by decide) i)) (by
    simp only [exec, execRdh, stateIndex, elementOf_ofNat (by decide) i, respond_eq, State.readH_eq])

theorem transact_wrb (j : Fin 16) (v : Word) (s : State) :
    transact (.wrb (BitVec.ofNat 8 j.val) v) s = .ok ((s.writeB j v).answer .ok 0) :=
  transact_of_exec (decode_encode (decide_ofNat_le (by decide) j)) (by
    simp only [exec, execWrb, blockIndex, elementOf_ofNat (by decide) j, respond_eq])

theorem transact_compress {s : State} {w : Vector Word 16} (hbv : s.bv = 0xffff)
    (hb : ∀ j : Fin 16, s.b[j] = some w[j]) :
    transact .compress s = .ok ((s.loadH (compressFn s.h w)).consumeBlock.answer .ok 0) :=
  transact_of_exec (decode_encode rfl) (exec_compress hbv hb)

/-! ### The sequences -/

/-- The state in which the host has taken several responses. -/
def State.addResponses (s : State) (rs : List Response) : State := { s with responses := s.responses ++ rs }

/-- The block buffer full with the words `w`. -/
def State.loadBlock (s : State) (w : Vector Word 16) : State := { s with b := w.map some, bv := 0xffff }

@[simp] theorem State.addResponses_h (s : State) (rs : List Response) : (s.addResponses rs).h = s.h := rfl

theorem State.addResponses_nil (s : State) : s.addResponses [] = s := by
  simp only [State.addResponses, List.append_nil]

theorem State.addResponses_answer (s : State) (rs : List Response) (st : Status) (v : Word) :
    (s.addResponses rs).answer st v = s.addResponses (rs ++ [⟨st, v⟩]) := by
  simp only [State.addResponses, State.answer, List.append_assoc]

/-- The responses to a first command and to the rest of its sequence. -/
theorem State.answer_addResponses (s : State) (rs : List Response) (st : Status) (v : Word) :
    (s.answer st v).addResponses rs = s.addResponses (⟨st, v⟩ :: rs) := by
  simp only [State.addResponses, State.answer, List.append_assoc, List.singleton_append]

theorem issue_map_wrh (v : Vector Word 8) (l : List (Fin 8)) (s : State) :
    issue (l.map fun i => .wrh (BitVec.ofNat 8 i.val) v[i]) s =
      .ok ((s.loadH (writeEach v l s.h)).addResponses (List.replicate l.length ⟨.ok, 0⟩)) := by
  induction l generalizing s with
  | nil => exact congrArg Except.ok s.addResponses_nil.symm
  | cons i l ih =>
    rw [List.map_cons, issue_cons_of_ok (transact_wrh i v[i] s), ih, writeEach_cons, List.length_cons,
      List.replicate_succ, ← State.answer_addResponses]
    rfl

theorem issue_map_wrb (w : Vector Word 16) (l : List (Fin 16)) (s : State) :
    issue (l.map fun j => .wrb (BitVec.ofNat 8 j.val) w[j]) s =
      .ok (State.addResponses { s with b := writeEach (w.map some) l s.b, bv := l.foldl setValid s.bv }
        (List.replicate l.length ⟨.ok, 0⟩)) := by
  induction l generalizing s with
  | nil => exact congrArg Except.ok s.addResponses_nil.symm
  | cons j l ih =>
    have hword : (w.map some)[j] = some w[j] := Vector.getElem_map some j.isLt
    rw [List.map_cons, issue_cons_of_ok (transact_wrb j w[j] s), ih, writeEach_cons, List.length_cons,
      List.replicate_succ, ← State.answer_addResponses, hword]
    rfl

theorem issue_map_rdh (l : List (Fin 8)) (s : State) :
    issue (l.map fun i => .rdh (BitVec.ofNat 8 i.val)) s =
      .ok (s.addResponses (l.map fun i => ⟨.ok, s.h[i]⟩)) := by
  induction l generalizing s with
  | nil => exact congrArg Except.ok s.addResponses_nil.symm
  | cons i l ih =>
    rw [List.map_cons, issue_cons_of_ok (transact_rdh i s), ih, State.answer_addResponses]
    rfl

/-- WRST gives `H` its eight words. -/
theorem issue_wrst (v : Vector Word 8) (s : State) :
    issue (wrst v) s = .ok ((s.loadH v).addResponses (List.replicate 8 ⟨.ok, 0⟩)) := by
  rw [wrst, issue_map_wrh, writeEach_finRange, List.length_finRange]

/-- LDBLK fills the block, whatever was in it. -/
theorem issue_ldblk (w : Vector Word 16) (s : State) :
    issue (ldblk w) s = .ok ((s.loadBlock w).addResponses (List.replicate 16 ⟨.ok, 0⟩)) := by
  rw [ldblk, issue_map_wrb, writeEach_finRange, foldl_setValid_finRange, List.length_finRange]
  rfl

/-- RDST reads `H` in index order. -/
theorem issue_rdst (s : State) : issue rdst s = .ok (s.addResponses (s.h.toList.map (Response.mk .ok))) := by
  have hwords : s.h.toList = (List.finRange 8).map fun i => s.h[i] :=
    List.ext_getElem (by simp) (by simp)
  rw [rdst, issue_map_rdh, hwords, List.map_map]
  rfl

/-- HASHBLK compresses its words into `H` and leaves the block empty, whatever was in it. -/
theorem issue_hashblk (w : Vector Word 16) (s : State) : issue (hashblk w) s =
    .ok ((s.loadH (compressFn s.h w)).consumeBlock.addResponses (List.replicate 17 ⟨.ok, 0⟩)) := by
  have hcompress := transact_compress (s := (s.loadBlock w).addResponses (List.replicate 16 ⟨.ok, 0⟩)) (w := w) rfl
    fun j => Vector.getElem_map some j.isLt
  rw [hashblk, issue_append, issue_ldblk]
  exact (issue_cons_of_ok hcompress []).trans (congrArg Except.ok
    (State.addResponses_answer (s.loadH (compressFn s.h w)).consumeBlock (List.replicate 16 ⟨.ok, 0⟩) .ok 0))

/-- Settles O46: the state HASHBLK ends in. -/
theorem hashblkCompressesTheBlock : Obligations.HashblkCompressesTheBlock :=
  fun s w => ⟨_, issue_hashblk w s, rfl, fun j => Vector.getElem_replicate j.isLt, rfl, rfl, rfl⟩

/-! ### Saving and restoring `H` -/

/-- The eight words of the last eight responses are what the host read last. -/
theorem State.lastRead_addResponses (s : State) (v : Vector Word 8) :
    (s.addResponses (v.toList.map (Response.mk .ok))).lastRead 8 = v.toList := by
  simp only [State.addResponses, State.lastRead, List.length_append, List.length_map, Vector.length_toList,
    Nat.add_sub_cancel, List.drop_left, List.map_map]
  exact List.map_id _

theorem saveState_eq (s : State) :
    saveState s = .ok (s.h, s.addResponses (s.h.toList.map (Response.mk .ok))) := by
  simp only [saveState, issue_rdst, State.lastState_of_lastRead (s.lastRead_addResponses s.h)]

/-- Settles O47: the three sequences one after another, and the eight words RDST read. -/
theorem wrstHashblkRdstIsCompressFn : Obligations.WrstHashblkRdstIsCompressFn := by
  intro s v w
  have hwritten : ∃ u, issue (wrst v ++ hashblk w) s = .ok u ∧ u.h = compressFn v w := by
    rw [issue_append, issue_wrst]
    exact ⟨_, issue_hashblk w _, rfl⟩
  obtain ⟨u, hissue, hu⟩ := hwritten
  refine ⟨u.addResponses (u.h.toList.map (Response.mk .ok)), ?_, ?_, hu⟩
  · rw [issue_append, hissue]
    exact issue_rdst u
  · rw [State.lastRead_addResponses, hu]

/-- Settles O48: RDST reads `H` and WRST writes it, and neither writes the block. -/
theorem savedStateIsRestored : Obligations.SavedStateIsRestored :=
  fun s t => ⟨_, saveState_eq s, ⟨rfl, rfl, rfl⟩, _, issue_wrst s.h t, rfl, rfl, rfl⟩

end Sys2Proof.Machine
end

section
/-! SUPPORT. Padding, and what a context holds of the message absorbed so far (45_streaming_host.md R171, R174 to R176,
R180). -/

namespace Sys2Proof.Machine

/-! ### Padding -/

theorem length_be64 (l : BitVec 64) : (be64 l).length = 8 := rfl

theorem be64_getElem? (l : BitVec 64) (k : Fin 8) : (be64 l)[k.val]? = some (l.extractLsb' (56 - 8 * k.val) 8) := by
  simp [be64, k.isLt]

theorem pad_eq (r : Nat) (l : BitVec 64) : pad r l = [0x80] ++ List.replicate (padZeros r) 0 ++ be64 l := rfl

theorem length_pad (r : Nat) (l : BitVec 64) : (pad r l).length = padZeros r + 9 := by
  simp only [pad_eq, List.length_append, List.length_singleton, List.length_replicate, length_be64]
  omega

theorem add_length_pad {r : Nat} (hr : r ≤ 63) (l : BitVec 64) :
    r + (pad r l).length = if r ≤ 55 then 64 else 128 := by
  rw [length_pad, padZeros]
  split <;> omega

/-- Settles O51: `padZeros` is the least solution of the congruence, a number below 64. -/
theorem paddingCompletesTheBlock : Obligations.PaddingCompletesTheBlock := by
  intro r l hr
  refine ⟨padZeros r, pad_eq r l, ?_, fun z' hz' => ?_, add_length_pad hr l, length_be64 l, be64_getElem? l⟩
  · rw [padZeros]; omega
  · rw [padZeros]; omega

/-- Settles O56: the padding completes the last block, or one more where fewer than nine bytes are free. -/
theorem messageBlockCount : Obligations.MessageBlockCount := by
  intro msg
  have hpad := add_length_pad (r := msg.length % 64) (by omega) (BitVec.ofNat 64 (8 * msg.length))
  rw [paddedMessage, List.length_append]
  split at hpad <;> omega

/-! ### Absorbing -/

theorem takeBlock_of_le {l : List Byte} (h : 64 ≤ l.length) :
    takeBlock l = some (⟨(l.take 64).toArray, by simp [h]⟩, l.drop 64) := dif_pos h

theorem takeBlock_eq_some {l rest : List Byte} {blk : Vector Byte 64} (h : takeBlock l = some (blk, rest)) :
    l.length = rest.length + 64 ∧ rest = l.drop 64 := by
  by_cases hle : 64 ≤ l.length
  · rw [takeBlock_of_le hle] at h
    cases h
    exact ⟨by rw [List.length_drop, Nat.sub_add_cancel hle], rfl⟩
  · rw [takeBlock, dif_neg hle] at h
    cases h

theorem takeBlock_append {l rest : List Byte} {blk : Vector Byte 64} (h : takeBlock l = some (blk, rest))
    (more : List Byte) : takeBlock (l ++ more) = some (blk, rest ++ more) := by
  have hle : 64 ≤ l.length := by
    obtain ⟨hlength, -⟩ := takeBlock_eq_some h
    omega
  rw [takeBlock_of_le hle] at h
  cases h
  have hle' : 64 ≤ (l ++ more).length := hle.trans (by simp)
  simp only [takeBlock_of_le hle', List.take_append_of_le_length hle, List.drop_append_of_le_length hle]

/-- Induction on a list of bytes block by block. -/
theorem blockInduction {motive : List Byte → Prop} (short : ∀ l : List Byte, l.length < 64 → motive l)
    (block : ∀ l blk rest, takeBlock l = some (blk, rest) → motive rest → motive l) (l : List Byte) : motive l := by
  induction hn : l.length using Nat.strong_induction_on generalizing l with
  | _ n ih =>
    rcases Nat.lt_or_ge l.length 64 with hlt | hge
    · exact short l hlt
    · refine block l _ _ (takeBlock_of_le hge) (ih _ ?_ _ rfl)
      rw [List.length_drop]
      omega

theorem absorb_of_lt {l : List Byte} (h : l.length < 64) (st : Vector Word 8) : absorb st l = (st, l) := by
  rw [absorb, Nat.div_eq_of_lt h, absorbBlocks]

theorem absorb_of_takeBlock {l rest : List Byte} {blk : Vector Byte 64} (h : takeBlock l = some (blk, rest))
    (st : Vector Word 8) : absorb st l = absorb (compressFn st (blockToWords blk)) rest := by
  obtain ⟨hlength, -⟩ := takeBlock_eq_some h
  rw [absorb, hlength, Nat.add_div_right _ (by decide), absorbBlocks, h, absorb]

/-- Bytes absorbed in two parts: what the first leaves over comes before the second. -/
theorem absorb_append (a b : List Byte) (st : Vector Word 8) :
    absorb st (a ++ b) = absorb (absorb st a).1 ((absorb st a).2 ++ b) := by
  induction a using blockInduction generalizing st with
  | short a hlt => rw [absorb_of_lt hlt]
  | block a blk rest h ih => rw [absorb_of_takeBlock (takeBlock_append h b), absorb_of_takeBlock h, ih]

/-- What is left over is what follows the whole blocks. -/
theorem absorb_snd (l : List Byte) (st : Vector Word 8) : (absorb st l).2 = l.drop (64 * (l.length / 64)) := by
  induction l using blockInduction generalizing st with
  | short l hlt => rw [absorb_of_lt hlt, Nat.div_eq_of_lt hlt, Nat.mul_zero, List.drop_zero]
  | block l blk rest h ih =>
    obtain ⟨hlength, hdrop⟩ := takeBlock_eq_some h
    have hblocks : 64 * (l.length / 64) = 64 + 64 * (rest.length / 64) := by omega
    rw [absorb_of_takeBlock h, ih, hblocks, ← List.drop_drop, ← hdrop]

/-! ### Contexts -/

theorem HasherContext.Represents.toNat_bitlen {ctx : HasherContext} {msg : List Byte} (h : ctx.Represents msg) :
    ctx.bitlen.toNat = 8 * msg.length := by
  obtain ⟨-, hbitlen, -⟩ := h
  exact hbitlen

theorem HasherContext.Represents.buf_eq {ctx : HasherContext} {msg : List Byte} (h : ctx.Represents msg) :
    ctx.buf = msg.drop (64 * (msg.length / 64)) := by
  obtain ⟨-, -, habsorb⟩ := h
  rw [← absorb_snd msg iv, ← habsorb]

theorem HasherContext.Represents.length_buf {ctx : HasherContext} {msg : List Byte} (h : ctx.Represents msg) :
    ctx.buf.length = msg.length % 64 := by
  rw [h.buf_eq, List.length_drop]
  omega

/-- Going on from a context that represents a message is going on from the message itself. -/
theorem HasherContext.Represents.absorb_append {ctx : HasherContext} {msg : List Byte} (h : ctx.Represents msg)
    (more : List Byte) : absorb ctx.state (ctx.buf ++ more) = absorb iv (msg ++ more) := by
  obtain ⟨-, -, habsorb⟩ := h
  rw [Machine.absorb_append msg more iv, ← habsorb]

theorem HasherContext.represents_new : HasherContext.new.Represents [] :=
  ⟨by decide, rfl, rfl⟩

/-- Inside the bound `update` succeeds and appends its bytes to the message. -/
theorem HasherContext.Represents.exists_update {ctx : HasherContext} {msg bytes : List Byte}
    (h : ctx.Represents msg) (hlt : 8 * (msg ++ bytes).length < 2 ^ 64) :
    ∃ ctx', ctx.update bytes = .ok ctx' ∧ ctx'.Represents (msg ++ bytes) := by
  have happend := h.absorb_append bytes
  obtain ⟨hphase, hbitlen, -⟩ := h
  rw [List.length_append, Nat.mul_add, ← hbitlen] at hlt
  refine ⟨_, HasherContext.update_of_inside_bound hphase hlt, nofun, ?_, happend⟩
  rw [toNat_add_ofNat_of_inside_bound hlt, hbitlen, List.length_append, Nat.mul_add]

/-- Settles O55: the bytes after the whole blocks are left over, and an update goes on where the message ended. -/
theorem contextRepresentsTheBytesAbsorbed : Obligations.ContextRepresentsTheBytesAbsorbed := by
  refine ⟨HasherContext.represents_new, fun ctx msg h => ⟨?_, ?_, h.buf_eq, fun bytes ctx' hok => ?_⟩⟩
  · rw [h.length_buf]
    omega
  · rw [h.length_buf, h.toNat_bitlen, Nat.mul_div_cancel_left _ (by decide)]
  · rcases Nat.lt_or_ge (8 * (msg ++ bytes).length) (2 ^ 64) with hlt | hge
    · obtain ⟨ctx'', hok', hrep⟩ := h.exists_update hlt
      exact Except.ok.inj (hok.symm.trans hok') ▸ hrep
    · obtain ⟨hphase, hbitlen, -⟩ := h
      rw [List.length_append, Nat.mul_add, ← hbitlen] at hge
      rw [HasherContext.update_of_past_bound hphase hge] at hok
      cases hok

theorem HasherContext.updates_cons_of_ok {ctx ctx' : HasherContext} {bytes : List Byte}
    (h : ctx.update bytes = .ok ctx') (more : List (List Byte)) : ctx.updates (bytes :: more) = ctx'.updates more := by
  simp only [HasherContext.updates, h]

theorem HasherContext.Represents.exists_updates {ctx : HasherContext} {msg : List Byte} {chunks : List (List Byte)}
    (h : ctx.Represents msg) (hlt : 8 * (msg ++ chunks.flatten).length < 2 ^ 64) :
    ∃ ctx', ctx.updates chunks = .ok ctx' ∧ ctx'.Represents (msg ++ chunks.flatten) := by
  induction chunks generalizing ctx msg with
  | nil => exact ⟨ctx, rfl, by rwa [List.flatten_nil, List.append_nil]⟩
  | cons bytes more ih =>
    rw [List.flatten_cons, ← List.append_assoc] at hlt ⊢
    have hfirst : 8 * (msg ++ bytes).length < 2 ^ 64 := by
      rw [List.length_append] at hlt
      omega
    obtain ⟨ctx', hok, hrep⟩ := h.exists_update hfirst
    rw [HasherContext.updates_cons_of_ok hok]
    exact ih hrep hlt

/-- `finalize` on a context that represents a message pads what `sha256` pads. -/
theorem HasherContext.Represents.exists_finalize {ctx : HasherContext} {msg : List Byte} (h : ctx.Represents msg)
    (hlt : 8 * msg.length < 2 ^ 64) : ∃ ctx' d, ctx.finalize = .ok (ctx', d) ∧ sha256 msg = .ok d := by
  have happend := h.absorb_append (pad ctx.buf.length ctx.bitlen)
  have hlength := h.length_buf
  obtain ⟨hphase, hbitlen, -⟩ := h
  have hcounter : ctx.bitlen = BitVec.ofNat 64 (8 * msg.length) := by
    rw [← hbitlen, BitVec.ofNat_toNat, BitVec.setWidth_eq]
  refine ⟨_, _, HasherContext.finalize_of_ne_finalized hphase, ?_⟩
  rw [sha256_of_inside_bound hlt, happend, hlength, hcounter, paddedMessage]

/-- Settles O57: the context after the updates represents the whole message, so `finalize` gives its digest. -/
theorem digestDoesNotDependOnTheSplit : Obligations.DigestDoesNotDependOnTheSplit := by
  intro chunks hlt
  obtain ⟨ctx, hupdates, hrep⟩ := HasherContext.represents_new.exists_updates (chunks := chunks) hlt
  obtain ⟨ctx', d, hfinalize, hdigest⟩ := hrep.exists_finalize hlt
  exact ⟨ctx, ctx', d, hupdates, hfinalize, hdigest⟩

end Sys2Proof.Machine
end

section
/-! SUPPORT. The host layer on the engine, alone and shared (45_streaming_host.md R174 to R178, R184). -/

namespace Sys2Proof.Machine

/-! ### One context per engine -/

/-- Driving whole blocks absorbs them, with `H` as the running State. -/
theorem exists_driveBlocks (n : Nat) (s : State) (buf : List Byte) : ∃ s',
    driveBlocks n s buf = .ok (s', (absorbBlocks n s.h buf).2) ∧ s'.h = (absorbBlocks n s.h buf).1 := by
  induction n generalizing s buf with
  | zero => exact ⟨s, rfl, rfl⟩
  | succ n ih =>
    cases htake : takeBlock buf with
    | none => simp only [driveBlocks, absorbBlocks, htake]; exact ⟨s, rfl, rfl⟩
    | some p =>
      simp only [driveBlocks, absorbBlocks, htake, issue_hashblk]
      exact ih _ p.2

/-- The loop of R174 on the engine ends where `absorb` ends. -/
theorem exists_driveBlocks_absorb (s : State) (buf : List Byte) : ∃ s',
    driveBlocks (buf.length / 64) s buf = .ok (s', (absorb s.h buf).2) ∧ s'.h = (absorb s.h buf).1 :=
  exists_driveBlocks (buf.length / 64) s buf

theorem driveUpdate_of_finalized {c : HostContext} (h : c.phase = .finalized) (bytes : List Byte) (s : State) :
    driveUpdate c bytes s = .error (.host .invalidState) :=
  if_pos h

theorem driveUpdate_of_past_bound {c : HostContext} {bytes : List Byte} (h : c.phase ≠ .finalized)
    (hle : 2 ^ 64 ≤ c.bitlen.toNat + 8 * bytes.length) (s : State) :
    driveUpdate c bytes s = .error (.host .lengthBound) :=
  (if_neg h).trans (if_neg fun hin => Nat.not_lt.mpr hle ((withinBound_iff _ _).mp hin))

theorem driveUpdate_of_inside_bound {c : HostContext} {bytes rest : List Byte} {s s' : State}
    (h : c.phase ≠ .finalized) (hlt : c.bitlen.toNat + 8 * bytes.length < 2 ^ 64)
    (hdrive : driveBlocks ((c.buf ++ bytes).length / 64) s (c.buf ++ bytes) = .ok (s', rest)) :
    driveUpdate c bytes s = .ok
      ({ buf := rest, bitlen := c.bitlen + BitVec.ofNat 64 (8 * bytes.length), phase := .absorbing }, s') := by
  simp only [driveUpdate, if_neg h, if_pos ((withinBound_iff _ _).mpr hlt), hdrive]

theorem driveFinalize_of_finalized {c : HostContext} (h : c.phase = .finalized) (s : State) :
    driveFinalize c s = .error (.host .invalidState) :=
  if_pos h

/-- After the padded tail RDST reads `H`, and the digest is made from it. -/
theorem driveFinalize_of_ne_finalized {c : HostContext} {rest : List Byte} {s s' : State} (h : c.phase ≠ .finalized)
    (hdrive : driveBlocks ((c.buf ++ pad c.buf.length c.bitlen).length / 64) s
      (c.buf ++ pad c.buf.length c.bitlen) = .ok (s', rest)) :
    driveFinalize c s = .ok ({ c with buf := [], phase := .finalized },
      s'.addResponses (s'.h.toList.map (Response.mk .ok)), digestBytes s'.h) := by
  simp only [driveFinalize, if_neg h, hdrive, saveState_eq]

theorem exists_driveUpdate {c : HostContext} {bytes : List Byte} (h : c.phase ≠ .finalized)
    (hlt : c.bitlen.toNat + 8 * bytes.length < 2 ^ 64) (s : State) : ∃ c' s',
    driveUpdate c bytes s = .ok (c', s') ∧ (c.withEngine s).update bytes = .ok (c'.withEngine s') := by
  obtain ⟨s', hdrive, hh⟩ := exists_driveBlocks_absorb s (c.buf ++ bytes)
  refine ⟨_, s', driveUpdate_of_inside_bound h hlt hdrive, ?_⟩
  rw [HasherContext.update_of_inside_bound (ctx := c.withEngine s) h hlt]
  simp only [HostContext.withEngine, HostContext.withState, hh]

theorem exists_driveFinalize {c : HostContext} (h : c.phase ≠ .finalized) (s : State) : ∃ c' s' d,
    driveFinalize c s = .ok (c', s', d) ∧ (c.withEngine s).finalize = .ok (c'.withEngine s', d) := by
  obtain ⟨s', hdrive, hh⟩ := exists_driveBlocks_absorb s (c.buf ++ pad c.buf.length c.bitlen)
  refine ⟨_, _, _, driveFinalize_of_ne_finalized h hdrive, ?_⟩
  rw [HasherContext.finalize_of_ne_finalized (ctx := c.withEngine s) h]
  simp only [HostContext.withEngine, HostContext.withState, State.addResponses_h, hh]

/-- Settles O58: the driven operations test the same conditions, and between them drive what the context absorbs. -/
theorem engineRefinesTheHasher : Obligations.EngineRefinesTheHasher := by
  refine ⟨fun c bytes s => ?_, fun c s => ?_⟩
  · by_cases hphase : c.phase = .finalized
    · rw [HasherContext.update_of_finalized (ctx := c.withEngine s) hphase]
      exact driveUpdate_of_finalized hphase bytes s
    · rcases Nat.lt_or_ge (c.bitlen.toNat + 8 * bytes.length) (2 ^ 64) with hlt | hge
      · obtain ⟨c', s', hdrive, hupdate⟩ := exists_driveUpdate hphase hlt s
        rw [hupdate]
        exact ⟨c', s', hdrive, rfl⟩
      · rw [HasherContext.update_of_past_bound (ctx := c.withEngine s) hphase hge]
        exact driveUpdate_of_past_bound hphase hge s
  · by_cases hphase : c.phase = .finalized
    · rw [HasherContext.finalize_of_finalized (ctx := c.withEngine s) hphase]
      exact driveFinalize_of_finalized hphase s
    · obtain ⟨c', s', d, hdrive, hfinalize⟩ := exists_driveFinalize hphase s
      rw [hfinalize]
      exact ⟨c', s', hdrive, rfl⟩

/-- Settles O59: after the reset the engine holds the State of a new context, which then represents the message. -/
theorem engineHashesEveryMessage : Obligations.EngineHashesEveryMessage := by
  intro s msg hlt
  obtain ⟨hupdates, hfinalizes⟩ := engineRefinesTheHasher
  have hupdate := hupdates { buf := [], bitlen := 0, phase := .ready } msg ((s.loadH iv).answer .ok 0)
  obtain ⟨ctx, hok, hrep⟩ := HasherContext.represents_new.exists_update (bytes := msg) hlt
  have hnew : HostContext.withEngine { buf := [], bitlen := 0, phase := .ready } ((s.loadH iv).answer .ok 0) =
    HasherContext.new := rfl
  rw [hnew, hok] at hupdate
  obtain ⟨c2, s2, hdrive, rfl⟩ := hupdate
  obtain ⟨ctx', d, hfinal, hdigest⟩ := hrep.exists_finalize hlt
  have hfinalize := hfinalizes c2 s2
  rw [hfinal] at hfinalize
  obtain ⟨c3, s3, hdrive', -⟩ := hfinalize
  exact ⟨_, _, c2, s2, c3, s3, d, driveReset_eq s, hdrive, hdrive', hdigest⟩

/-! ### Several contexts on one engine -/

/-- Between WRST and RDST an operation that turns the State it finds in `H` into another computes on `v`. -/
theorem exists_onSharedEngine {α : Type} {v : Vector Word 8} {op : State → Except HostStop (α × State)}
    {P : α → Vector Word 8 → Prop} (hop : ∀ s1 : State, s1.h = v → ∃ a s2, op s1 = .ok (a, s2) ∧ P a s2.h)
    (s : State) : ∃ a v' s', onSharedEngine v op s = .ok (a, v', s') ∧ P a v' := by
  obtain ⟨a, s2, hrun, hP⟩ := hop ((s.loadH v).addResponses (List.replicate 8 ⟨.ok, 0⟩)) rfl
  exact ⟨a, s2.h, _, onSharedEngine_ok (issue_wrst v s) hrun (saveState_eq s2), hP⟩

theorem HasherContext.hostPart_withEngine {ctx : HasherContext} {s : State} (h : s.h = ctx.state) :
    ctx.hostPart.withEngine s = ctx := by
  rw [HostContext.withEngine, h, HasherContext.hostPart_withState]

theorem exists_sharedUpdate {ctx : HasherContext} {bytes : List Byte} (h : ctx.phase ≠ .finalized)
    (hlt : ctx.bitlen.toNat + 8 * bytes.length < 2 ^ 64) (s : State) : ∃ ctx' s',
    sharedUpdate ctx bytes s = .ok (ctx', s') ∧ ctx.update bytes = .ok ctx' := by
  have hop (s1 : State) (hs1 : s1.h = ctx.state) : ∃ c s2,
      driveUpdate ctx.hostPart bytes s1 = .ok (c, s2) ∧ ctx.update bytes = .ok (c.withState s2.h) := by
    have hdriven := exists_driveUpdate (c := ctx.hostPart) h hlt s1
    rwa [HasherContext.hostPart_withEngine hs1] at hdriven
  obtain ⟨c, v, s', hshared, hupdate⟩ :=
    exists_onSharedEngine (P := fun (c : HostContext) v => ctx.update bytes = .ok (c.withState v)) hop s
  refine ⟨c.withState v, s', ?_, hupdate⟩
  simp only [sharedUpdate, if_neg h, if_pos ((withinBound_iff _ _).mpr hlt), hshared]

theorem exists_sharedFinalize {ctx : HasherContext} (h : ctx.phase ≠ .finalized) (s : State) : ∃ ctx' s' d,
    sharedFinalize ctx s = .ok (ctx', s', d) ∧ ctx.finalize = .ok (ctx', d) := by
  have hop (s1 : State) (hs1 : s1.h = ctx.state) : ∃ a s2,
      ((driveFinalize ctx.hostPart s1).map fun r => ((r.1, r.2.2), r.2.1)) = .ok (a, s2) ∧
        ctx.finalize = .ok (a.1.withState s2.h, a.2) := by
    obtain ⟨c, s2, d, hdrive, hfinalize⟩ := exists_driveFinalize (c := ctx.hostPart) h s1
    rw [HasherContext.hostPart_withEngine hs1] at hfinalize
    exact ⟨(c, d), s2, by rw [hdrive]; rfl, hfinalize⟩
  obtain ⟨⟨c, d⟩, v, s', hshared, hfinalize⟩ :=
    exists_onSharedEngine (P := fun (a : HostContext × List Byte) v => ctx.finalize = .ok (a.1.withState v, a.2)) hop s
  refine ⟨c.withState v, s', d, ?_, hfinalize⟩
  simp only [sharedFinalize, if_neg h, hshared]

/-- A digest given on an engine of the context's own is the one `finalize` gives. -/
theorem finalize_of_driveFinalize {c c' : HostContext} {s s' : State} {d : List Byte}
    (h : driveFinalize c s = .ok (c', s', d)) :
    c.phase ≠ .finalized ∧ (c.withEngine s).finalize = .ok (c'.withEngine s', d) := by
  have hphase : c.phase ≠ .finalized := by
    intro hfin
    rw [driveFinalize_of_finalized hfin] at h
    cases h
  obtain ⟨c'', s'', d'', hdrive, hfinalize⟩ := exists_driveFinalize hphase s
  cases h.symm.trans hdrive
  exact ⟨hphase, hfinalize⟩

/-- Settles O60: WRST brings the context's State into any engine, where the driven operation is the context's. -/
theorem sharedEngineGivesTheSameDigests : Obligations.SharedEngineGivesTheSameDigests := by
  refine ⟨fun ctx bytes s => ?_, fun ctx s => ?_, fun c c' own own' other d hown => ?_⟩
  · by_cases hphase : ctx.phase = .finalized
    · rw [HasherContext.update_of_finalized hphase]
      exact if_pos hphase
    · rcases Nat.lt_or_ge (ctx.bitlen.toNat + 8 * bytes.length) (2 ^ 64) with hlt | hge
      · obtain ⟨ctx', s', hshared, hupdate⟩ := exists_sharedUpdate hphase hlt s
        rw [hupdate]
        exact ⟨s', hshared⟩
      · rw [HasherContext.update_of_past_bound hphase hge]
        exact (if_neg hphase).trans (if_neg fun hin => Nat.not_lt.mpr hge ((withinBound_iff _ _).mp hin))
  · by_cases hphase : ctx.phase = .finalized
    · rw [HasherContext.finalize_of_finalized hphase]
      exact if_pos hphase
    · obtain ⟨ctx', s', d, hshared, hfinalize⟩ := exists_sharedFinalize hphase s
      rw [hfinalize]
      exact ⟨s', hshared⟩
  · obtain ⟨hphase, hfinalize⟩ := finalize_of_driveFinalize hown
    obtain ⟨ctx', s', d', hshared, hfinalize'⟩ := exists_sharedFinalize (ctx := c.withEngine own) hphase other
    cases hfinalize.symm.trans hfinalize'
    exact ⟨s', hshared⟩

end Sys2Proof.Machine
end
